-- ==== Sys2Proof/Word.lean ====
section
/-! DEFINITION. The fixed widths of VGT40-CORE (00_scope.md R11) and the cell, the one composite value of its grid (R60). -/

namespace Sys2Proof

/-- A glyph code, an attribute or a glyph bitmap row: 8 bits (R11). -/
abbrev Byte := BitVec 8

/-- A palette index: 4 bits (R11). -/
abbrev PalIndex := BitVec 4

/-- A pixel, that is one packed colour: 16 bits (R11, R65). -/
abbrev Pixel := BitVec 16

/-- A command word, a response word or a word of the Scanline Pixel Run: 32 bits (R11, R75, R77). -/
abbrev Word := BitVec 32

/-- A Cell: the glyph code and the colour attribute of one grid position, two separate bytes (R60, R45). -/
structure Cell where
  glyph : Byte
  attr : Byte
deriving DecidableEq, Repr

end Sys2Proof
end

