-- ==== Sys2Proof/Config.lean ====
section
/-! DEFINITION. The implementation parameters of VGT40-CORE (00_scope.md R6, R8 to R10) and the values the spec leaves
free. The parameters are a record of plain data that carries its own constraints: a configuration outside them
cannot be built (92_eei_decisions.md D4: it is refused at elaboration). -/

namespace Sys2Proof

/-- FIRST_PRINTABLE, FIXED by R6. -/
def firstPrintable : Nat := 0x20

/-- The OPEN parameters of R6, one field each, and the constraints column of its table, one proof each. -/
structure Config where
  /-- ROWS, the character rows of the grid. -/
  rows : Nat
  /-- COLUMNS, the character columns of the grid. -/
  columns : Nat
  /-- ROWS_PER_GLYPH, the scanlines of one glyph. -/
  rowsPerGlyph : Nat
  /-- LAST_PRINTABLE, the highest glyph code with a font entry. -/
  lastPrintable : Nat
  /-- FONT, the glyph bitmap rows, indexed as R23 says. -/
  font : List Byte
  /-- PAL, the sixteen colours (R24). -/
  pal : Vector Pixel 16
  /-- RAW_RUN_MARKER, a 16-bit value (R10). -/
  rawRunMarker : BitVec 16
  /-- END_OF_LINE_MARKER, a whole word (R10). -/
  endOfLineMarker : Word
  /-- GRID_INIT, the grid's contents after reset, row by row (R31, R41). -/
  gridInit : List Cell
  rows_pos : 1 ≤ rows := by decide
  columns_pos : 1 ≤ columns := by decide
  columns_le : columns ≤ 8192 := by decide
  rowsPerGlyph_pos : 1 ≤ rowsPerGlyph := by decide
  firstPrintable_le : firstPrintable ≤ lastPrintable := by decide
  lastPrintable_le : lastPrintable ≤ 0xFF := by decide
  font_length : font.length = (lastPrintable - firstPrintable + 1) * rowsPerGlyph := by decide
  gridInit_length : gridInit.length = rows * columns := by decide
deriving DecidableEq, Repr

/-! ### Values nothing constrains

Each constant below has no body, so a claim proved about it holds for every value. -/

/-- LAST_PRINTABLE of `Config.ref`, before it is brought into the range R6 demands (91 N4; log entry 4). -/
opaque Config.openLastPrintable : Byte

/-- FONT of `Config.ref`, by entry index (91 N6; log entry 4). -/
opaque Config.openFont : Nat → Byte

/-- PAL of `Config.ref`, by palette index (91 N7; log entry 4). -/
opaque Config.openPal : Nat → Pixel

/-- RAW_RUN_MARKER of `Config.ref` (91 N13; log entry 4). -/
opaque Config.openRawRunMarker : BitVec 16

/-- END_OF_LINE_MARKER of `Config.ref` (91 N13; log entry 4). -/
opaque Config.openEndOfLineMarker : Word

/-- The glyph codes of GRID_INIT of `Config.ref`, by linear position (91 N8; log entry 4). -/
opaque Config.openGlyph : Nat → Byte

/-- The attributes of GRID_INIT of `Config.ref`, by linear position (91 N8; log entry 4). -/
opaque Config.openAttr : Nat → Byte

/-- What the words of a caller's buffer hold before a command, where the host's fetch lends one (R190, 93 U10; log entry 7). -/
opaque Config.lentWord : Nat → Word

/-- The words an abandoned RENDER leaves in the buffer it was writing, one for each value of the counter
`State.free` (R191, 93 U5; log entry 10). -/
opaque Config.freeWord : Nat → Word

/-- LAST_PRINTABLE of `Config.ref`: any value between FIRST_PRINTABLE and 0xFF. -/
def Config.refLastPrintable : Nat := firstPrintable + Config.openLastPrintable.toNat % 224

/-- The reference configuration REF of R8: 15 rows, 40 columns, 16 scanlines a glyph (log entry 3: DESIGN CHOICE, and
PRESUMED for the 16). REF fixes no other parameter, and neither does this definition. -/
def Config.ref : Config where
  rows := 15
  columns := 40
  rowsPerGlyph := 16
  lastPrintable := Config.refLastPrintable
  font := (List.range ((Config.refLastPrintable - firstPrintable + 1) * 16)).map Config.openFont
  pal := Vector.ofFn fun i => Config.openPal i
  rawRunMarker := Config.openRawRunMarker
  endOfLineMarker := Config.openEndOfLineMarker
  gridInit := (List.range 600).map fun i => ⟨Config.openGlyph i, Config.openAttr i⟩
  firstPrintable_le := Nat.le_add_right _ _
  lastPrintable_le := by
    have := Nat.mod_lt Config.openLastPrintable.toNat (show 0 < 224 by decide)
    simp only [Config.refLastPrintable, firstPrintable]
    omega
  font_length := by simp
  gridInit_length := by simp

end Sys2Proof
end

