-- ==== Sys2Proof/Machine/Geometry.lean ====
section
/-! DEFINITION. The derived constants of 00_scope.md R7, the sizes of the memory spaces (20_memory.md R40), and the range facts of
R9 and R14 that keep every index below in bounds. -/

namespace Sys2Proof

/-- DOTS_PER_GLYPH, FIXED by R6. -/
def dotsPerGlyph : Nat := 8

/-- SCANLINES, the number of valid scanline indices (R7). -/
def Config.scanlines (c : Config) : Nat := c.rows * c.rowsPerGlyph

/-- PIXELS_PER_LINE (R7). -/
def Config.pixelsPerLine (c : Config) : Nat := c.columns * 8

/-- WORDS_PER_LINE (R7). -/
def Config.wordsPerLine (c : Config) : Nat := c.columns * 4 + 2

/-- RUN_COUNT_FIELD, the low half of output word 1 (R7, 90_conflicts.md C2). -/
def Config.runCountField (c : Config) : Nat := c.columns * 8 - 3

/-- NGLYPHS (R7). -/
def Config.nglyphs (c : Config) : Nat := c.lastPrintable - firstPrintable + 1

/-- LAST_PIXEL_WORD (R7). -/
def Config.lastPixelWord (c : Config) : Nat := c.columns * 4

/-- EOL_WORD (R7, 90_conflicts.md C5). -/
def Config.eolWord (c : Config) : Nat := c.columns * 4 + 1

/-- The bytes of the GRID space: two for each cell (R40, R47). -/
def Config.gridBytes (c : Config) : Nat := 2 * (c.rows * c.columns)

theorem Config.pixelsPerLine_eq (c : Config) : c.pixelsPerLine = c.columns * 8 := by rw [Config.pixelsPerLine]

theorem Config.wordsPerLine_eq (c : Config) : c.wordsPerLine = c.columns * 4 + 2 := by rw [Config.wordsPerLine]

theorem Config.lastPixelWord_eq (c : Config) : c.lastPixelWord = c.columns * 4 := by rw [Config.lastPixelWord]

/-- Row-major linear index of a grid position (R41). -/
def Config.cellIndex (c : Config) (row : Fin c.rows) (col : Fin c.columns) : Nat := row * c.columns + col

theorem Config.cellIndex_lt (c : Config) (row : Fin c.rows) (col : Fin c.columns) :
    c.cellIndex row col < c.rows * c.columns := by
  have h : (row + 1) * c.columns ≤ c.rows * c.columns := Nat.mul_le_mul_right _ row.isLt
  have h' : (row + 1) * c.columns = row * c.columns + c.columns := Nat.succ_mul _ _
  simp only [Config.cellIndex]
  omega

/-- The font index of a printable code is inside the table (R14, R23). -/
theorem Config.fontIndex_lt (c : Config) {code row : Nat} (hcode : code ≤ c.lastPrintable)
    (hrow : row < c.rowsPerGlyph) :
    (code - firstPrintable) * c.rowsPerGlyph + row < c.font.length := by
  rw [c.font_length]
  have h : code - firstPrintable + 1 ≤ c.lastPrintable - firstPrintable + 1 := by omega
  have h' := Nat.mul_le_mul_right c.rowsPerGlyph h
  have h'' : (code - firstPrintable + 1) * c.rowsPerGlyph
      = (code - firstPrintable) * c.rowsPerGlyph + c.rowsPerGlyph := Nat.succ_mul _ _
  omega

/-- A valid scanline belongs to a character row (R14, R110). -/
theorem Config.charRow_lt (c : Config) {idx : Nat} (h : idx < c.scanlines) :
    idx / c.rowsPerGlyph < c.rows :=
  Nat.div_lt_of_lt_mul (by rw [Nat.mul_comm]; exact h)

end Sys2Proof
end

