-- ==== Sys2Proof/Syntax.lean ====
section
/-! DEFINITION. The commands of VGT40-CORE: one constructor for each row of spec/opcode_table.json. The operands are
naturals, as R90, R91 and R135 give them; which operands the binary form can carry is `Instr.wf` in WellFormed.lean. -/

namespace Sys2Proof

/-- A command (R2, R76). There is no other operation that can be called from outside the block (R150). -/
inductive Instr where
  /-- CGET row, col: read one cell (R90). -/
  | cget (row col : Nat)
  /-- CSET row, col, glyph, attr: write one cell (R91). -/
  | cset (row col : Nat) (glyph attr : Byte)
  /-- RENDER idx: render one scanline into the caller's buffer (R135). -/
  | render (idx : Nat)
deriving DecidableEq, Repr

end Sys2Proof
end

