-- ==== Sys2Proof/Machine/State.lean ====
section
/-! DEFINITION. The state of VGT40-CORE as plain data, the reasons a step can stop, and the state after reset. The block's own
state is the grid alone (10_state.md R20); beside it stand its parameters, the command and response interface at which
the environment meets it (30_encoding.md Part B, 20_memory.md R57), and one counter of the model's own. -/

namespace Sys2Proof.Machine

/-- A byte memory: pairs of an address and a byte, in the canonical form `Memory.wf` (Ops.lean) describes. -/
abbrev Memory := List Host.Cell

/-- The offending operands that `raise OutOfRange(info)` carries for a model's diagnostics (R165); the response word
does not hold them. -/
inductive RangeInfo where
  /-- The grid position of a CGET or CSET. -/
  | position (row col : Nat)
  /-- The scanline index of a RENDER. -/
  | scanline (idx : Nat)
deriving DecidableEq, Repr

/-- The status of a response (R28, R77). -/
inductive Status where
  | ok
  | outOfRange (info : RangeInfo)
  | illegalCommand
deriving DecidableEq, Repr

/-- What the environment gets back for one command: status and payload (R77), and the buffer it lent with the command,
handed back (R156). -/
structure Response where
  status : Status
  payload : BitVec 16
  buf : List Word
deriving DecidableEq, Repr

/-- A command as it is given: a command word (R75), or the abstract form over naturals, which has no limit on its
operands (R75, 92_eei_decisions.md D2). -/
inductive Command where
  | word (w : Word)
  | call (i : Instr)
deriving DecidableEq, Repr

/-- One use of the command interface: the command, and the buffer lent for its duration (R25, R57). The list's length
is the buffer's capacity and its entries the previous contents; the empty list is no buffer. -/
structure Request where
  command : Command
  buf : List Word
deriving DecidableEq, Repr

/-- What the environment can do to the block (R191, R192). -/
inductive Input where
  /-- Give a command, and wait for its response. -/
  | request (r : Request)
  /-- Reset between two operations (R191). -/
  | reset
  /-- Reset in the middle of this operation, which abandons it (R191, 93 U5). -/
  | resetDuring (r : Request)
deriving DecidableEq, Repr

/-- What the environment gets from the block. -/
inductive Output where
  /-- The response to a command. -/
  | response (r : Response)
  /-- The buffer of an operation that a reset abandoned: its response is never delivered (R191). -/
  | abandoned (buf : List Word)
deriving DecidableEq, Repr

/-- The machine. `cfg` never changes (R6, R20, R29); `grid` is the block's whole mutable state (R20, R21); the next four
fields are the interface and the model's bookkeeping of a run (R160). -/
structure State where
  /-- The parameters the block was built with (R6): FONT and PAL among them (R23, R24, R32). -/
  cfg : Config
  /-- GRID: the cells' bytes that differ from GRID_INIT (R21, R58; log entry 5). -/
  grid : Memory
  /-- The commands and resets still to come, the next one first (R50, R160; log entry 6). -/
  inputs : List Input
  /-- The responses and buffers produced so far, the newest first (R160; log entry 8). -/
  outputs : List Output
  /-- BUF: the buffer lent for the operation in progress; empty between operations (R25, R156; log entry 7). -/
  buf : List Word
  /-- How many free words a run has used: the model's own counter, not the spec's (log entry 10). -/
  free : Nat
deriving DecidableEq, Repr

/-- No condition of the spec stops this machine: OutOfRange and IllegalCommand are responses, after which the block
accepts the next command (R167, R173; log entries 1 and 19). Having no constructor is safe and unsafe in nothing: no
step answers a fault. -/
inductive Fault
deriving DecidableEq, Repr

/-- Why the model gives a step no meaning. -/
inductive Refusal where
  /-- Raised by `exec` for an instruction without a meaning: none is left. Safe. -/
  | notModelled (mnemonic : String)
  /-- Raised by RENDER of a valid scanline when fewer than WORDS_PER_LINE words of buffer are lent: the spec calls it
  undefined and has the model refuse it (R57, R168, 93 U1; log entry 9). Safe. -/
  | bufferTooSmall
deriving DecidableEq, Repr

/-- The machine of configuration `c` right after reset: every cell reads as GRID_INIT (R31, R190), nothing has been asked
and nothing answered. -/
def State.resetOf (c : Config) : State where
  cfg := c
  grid := []
  inputs := []
  outputs := []
  buf := []
  free := 0

/-- The machine right after reset, built with the reference configuration of R8 (log entries 3 and 4). -/
def State.reset : State := State.resetOf Config.ref

end Sys2Proof.Machine
end

