-- ==== Sys2Proof/Machine/Ops.lean ====
section
/-! DEFINITION. The named operations over the grid memory (20_memory.md R40 to R47, R58), and the delivery of a response, of
which a reported failure is one (60_exceptions.md R165, R172). -/

namespace Sys2Proof.Machine

/-! ### The grid as byte memory

The glyph byte of the cell with linear index `n` is at address `2n`, its attribute byte at `2n + 1` (log entry 5). -/

/-- What a byte of the grid that no CSET has changed reads as: GRID_INIT's (R31, R58). -/
def initByte (c : Config) (a : Fin c.gridBytes) : Byte :=
  let cell := c.gridInit[a.val / 2]'(by
    have := a.isLt
    rw [c.gridInit_length]
    simp only [Config.gridBytes] at this
    omega)
  if a.val % 2 = 0 then cell.glyph else cell.attr

/-- The byte listed for an address, if one is. -/
def Memory.find : Memory → Nat → Option Byte
  | [], _ => none
  | (k, b) :: m, a => if k = a then some b else Memory.find m a

/-- List byte `b` at address `a`, keeping the addresses rising. -/
def Memory.put : Memory → Nat → Byte → Memory
  | [], a, b => [(a, b)]
  | (k, v) :: m, a, b =>
    if a < k then (a, b) :: (k, v) :: m
    else if a = k then (a, b) :: m
    else (k, v) :: Memory.put m a b

/-- List nothing at address `a`. -/
def Memory.remove (m : Memory) (a : Nat) : Memory := m.filter fun e => e.1 != a

/-- Read one byte: the listed one, else GRID_INIT's (R58). -/
def Memory.read (c : Config) (m : Memory) (a : Fin c.gridBytes) : Byte :=
  (Memory.find m a).getD (initByte c a)

/-- Write one byte, keeping the canonical form: the byte an unlisted address reads as is not listed. -/
def Memory.write (c : Config) (m : Memory) (a : Fin c.gridBytes) (b : Byte) : Memory :=
  if b = initByte c a then Memory.remove m a else Memory.put m a b

/-- The canonical form: addresses strictly rising, each inside the grid, none listed with the byte it would read as
unlisted. -/
abbrev Memory.wf (c : Config) (m : Memory) : Prop :=
  m.Pairwise (fun e e' => e.1 < e'.1) ∧ ∀ e ∈ m, ∃ h : e.1 < c.gridBytes, e.2 ≠ initByte c ⟨e.1, h⟩

/-- Address of the glyph byte of a cell. -/
def glyphAddr (c : Config) (row : Fin c.rows) (col : Fin c.columns) : Fin c.gridBytes :=
  ⟨2 * c.cellIndex row col, by
    have := c.cellIndex_lt row col
    simp only [Config.gridBytes]
    omega⟩

/-- Address of the attribute byte of a cell. -/
def attrAddr (c : Config) (row : Fin c.rows) (col : Fin c.columns) : Fin c.gridBytes :=
  ⟨2 * c.cellIndex row col + 1, by
    have := c.cellIndex_lt row col
    simp only [Config.gridBytes]
    omega⟩

/-! ### The grid as a matrix of cells -/

/-- `GRID[row][col]` (R12, R58). -/
def readCell (c : Config) (m : Memory) (row : Fin c.rows) (col : Fin c.columns) : Cell :=
  ⟨Memory.read c m (glyphAddr c row col), Memory.read c m (attrAddr c row col)⟩

/-- `GRID[row][col] <- cell`: both bytes together (R12, R47). -/
def writeCell (c : Config) (m : Memory) (row : Fin c.rows) (col : Fin c.columns) (cell : Cell) : Memory :=
  Memory.write c (Memory.write c m (glyphAddr c row col) cell.glyph) (attrAddr c row col) cell.attr

/-- The byte of a grid at an address of the GRID space; none where the space has no such address (R40). -/
def gridByte (c : Config) (m : Memory) (a : Nat) : Option Byte :=
  if h : a < c.gridBytes then some (Memory.read c m ⟨a, h⟩) else none

/-- The cell of a grid at a position; none where the grid has no such position (R21, R22). -/
def gridCell (c : Config) (m : Memory) (row col : Nat) : Option Cell :=
  if h : row < c.rows ∧ col < c.columns then some (readCell c m ⟨row, h.1⟩ ⟨col, h.2⟩) else none

/-- The machine's byte at an address of the GRID space. -/
def State.byteAt (s : State) (a : Nat) : Option Byte := gridByte s.cfg s.grid a

/-- The machine's cell at a position. -/
def State.cellAt (s : State) (row col : Nat) : Option Cell := gridCell s.cfg s.grid row col

/-! ### Delivering the outcome of an operation -/

/-- Deliver the response to the operation in progress and hand its buffer back; the block is then idle (R77, R156,
R180). -/
def State.respond (s : State) (status : Status) (payload : BitVec 16) : State :=
  { s with buf := [], outputs := .response ⟨status, payload, s.buf⟩ :: s.outputs }

/-- `raise`: the one way a failure is reported. It is the response to the failing operation and nothing else: the state is
as before, no buffer word is written, the payload is 0, and the block accepts the next command (R165, R166, R172,
R173). Nothing is entered, so there is nothing to return from (R173). -/
def State.raise (s : State) (status : Status) : Host.Outcome State Fault Refusal :=
  .next (s.respond status 0)

/-- The buffer contract: with fewer than WORDS_PER_LINE words lent the operation has no meaning (R57, R168). -/
def State.withBuffer (s : State) (k : Host.Outcome State Fault Refusal) : Host.Outcome State Fault Refusal :=
  if s.cfg.wordsPerLine ≤ s.buf.length then k else .refused .bufferTooSmall

end Sys2Proof.Machine
end

