-- ==== Sys2Proof/Machine/GridStore.lean ====
section
/-! DEFINITION. The character grid store, 40_grid_store.md: the meanings of CGET (R90) and CSET (R91). -/

namespace Sys2Proof.Machine

/-- CGET: the bounds check comes first; then the payload is the pair `(glyph, attr)` of the cell read, `attr` above
`glyph` (R90, R77). No state is written. -/
def execCget (row col : Nat) (s : State) : Host.Outcome State Fault Refusal :=
  if h : row < s.cfg.rows ∧ col < s.cfg.columns then
    let cell := readCell s.cfg s.grid ⟨row, h.1⟩ ⟨col, h.2⟩
    .next (s.respond .ok (cell.attr ++ cell.glyph))
  else
    s.raise (.outOfRange (.position row col))

/-- CSET: the bounds check comes first; then exactly the one cell is written, whatever the value (R91). -/
def execCset (row col : Nat) (glyph attr : Byte) (s : State) : Host.Outcome State Fault Refusal :=
  if h : row < s.cfg.rows ∧ col < s.cfg.columns then
    let written := { s with grid := writeCell s.cfg s.grid ⟨row, h.1⟩ ⟨col, h.2⟩ ⟨glyph, attr⟩ }
    .next (written.respond .ok 0)
  else
    s.raise (.outOfRange (.position row col))

end Sys2Proof.Machine
end

