-- ==== Sys2Proof/Machine/Operands.lean ====
section
/-! DEFINITION. How operands and fields are taken apart and put together: the attribute's nibbles (30_encoding.md R61), the dots of a
bitmap row (R63, R64), the colour's fields (R66), the halves of an output word (R43, R74, 43_packer.md R124), the
scanline index (42_rasterizer.md R110), and the byte image of a word list (20_memory.md R44). No field is signed
(R74). -/

namespace Sys2Proof.Machine

/-- Foreground palette index, `attr & 0xF` (R61). -/
def fgIndex (attr : Byte) : PalIndex := attr.extractLsb' 0 4

/-- Background palette index, `attr >> 4` (R61). -/
def bgIndex (attr : Byte) : PalIndex := attr.extractLsb' 4 4

/-- Dot `d` of a bitmap row, 0 the leftmost: bit `7 - d`; set means foreground (R63). -/
def dot (bitmap : Byte) (d : Fin 8) : Bool := bitmap.getLsbD (7 - d)

/-- The red field of a colour, bits 4:0 (R66). -/
def redField (colour : Pixel) : BitVec 5 := colour.extractLsb' 0 5

/-- Bit 5 of a colour, unused and reserved, which the block copies like the others (R66, R79). -/
def reservedBit (colour : Pixel) : BitVec 1 := colour.extractLsb' 5 1

/-- The green field of a colour, bits 10:6 (R66). -/
def greenField (colour : Pixel) : BitVec 5 := colour.extractLsb' 6 5

/-- The blue field of a colour, bits 15:11 (R66). -/
def blueField (colour : Pixel) : BitVec 5 := colour.extractLsb' 11 5

/-- An output word from its halves: the high one shifted left by 16 and or-ed with the low one (R74). -/
def wordOf (hi lo : BitVec 16) : Word := lo.setWidth 32 ||| (hi.setWidth 32 <<< 16)

/-- Low half of a word, lane 0, bits 15:0 (R12, R124). -/
def lowHalf (w : Word) : BitVec 16 := w.extractLsb' 0 16

/-- High half of a word, lane 1, bits 31:16 (R12, R124). -/
def highHalf (w : Word) : BitVec 16 := w.extractLsb' 16 16

/-- SCANMUX: character row and glyph row of a scanline index (R110). -/
def scanMux (c : Config) (idx : Nat) : Nat × Nat := (idx / c.rowsPerGlyph, idx % c.rowsPerGlyph)

/-- The four bytes of a word, least significant first (R44; log entry 15). -/
def wordBytes (w : Word) : List Byte :=
  [w.extractLsb' 0 8, w.extractLsb' 8 8, w.extractLsb' 16 8, w.extractLsb' 24 8]

/-- The byte image of a buffer: word `i` occupies bytes `4i` to `4i + 3` (R44). -/
def byteImage (ws : List Word) : List Byte := ws.flatMap wordBytes

end Sys2Proof.Machine
end

