-- ==== Sys2Proof/Machine/Packer.lean ====
section
/-! DEFINITION. The packer, 43_packer.md: PACK (R128), from the pixels of a line to the words of the Scanline Pixel Run, and the
reading of a run back (30_encoding.md R73). -/

namespace Sys2Proof.Machine

/-- PACK: word `i` of the run, its format selected by its index alone (R67, R128): the two header words (R121, R122), the
pixel pairs (R123), the last pixel word with its high half forced to 0x0000 (R125), the end-of-line word (R126). -/
def pack (c : Config) (pix : Vector Pixel c.pixelsPerLine) : Vector Word c.wordsPerLine :=
  Vector.ofFn fun i : Fin c.wordsPerLine =>
    have hc := c.columns_pos
    have hp := c.pixelsPerLine_eq
    have hw := c.lastPixelWord_eq
    if i.val = 0 then
      wordOf (pix[0]'(by omega)) c.rawRunMarker
    else if i.val = 1 then
      wordOf (pix[1]'(by omega)) (BitVec.ofNat 16 c.runCountField)
    else if h : i.val < c.lastPixelWord then
      wordOf (pix[2 * i.val - 1]'(by omega)) (pix[2 * i.val - 2]'(by omega))
    else if i.val = c.lastPixelWord then
      wordOf 0x0000#16 (pix[8 * c.columns - 2]'(by omega))
    else
      c.endOfLineMarker

/-- The word count PACK reports, the end-of-line word included (R127). -/
def usedWords (c : Config) : BitVec 16 := BitVec.ofNat 16 c.wordsPerLine

/-- The colour a reader of the run finds at pixel position `p` (R73). -/
def decodedPixel (c : Config) (run : Vector Word c.wordsPerLine) (p : Fin c.pixelsPerLine) : Pixel :=
  have hp := c.pixelsPerLine_eq
  have hw := c.wordsPerLine_eq
  if p.val = 0 then highHalf (run[0]'(by omega))
  else if p.val = 1 then highHalf (run[1]'(by omega))
  else if p.val % 2 = 0 then lowHalf (run[p.val / 2 + 1]'(by omega))
  else highHalf (run[(p.val - 1) / 2 + 1]'(by omega))

end Sys2Proof.Machine
end

