-- ==== Sys2Proof/Machine/Lookup.lean ====
section
/-! DEFINITION. The font and palette lookups, 41_font_palette.md: GLYPHROW (R100) and COLOR (R102). Both read parameters only
(R104). -/

namespace Sys2Proof.Machine

/-- A code with a font entry (R62). -/
abbrev Printable (c : Config) (code : Byte) : Prop := firstPrintable ≤ code.toNat ∧ code.toNat ≤ c.lastPrintable

/-- GLYPHROW: the stored bitmap row of a printable code, 0 (blank) for every other, without reading the font (R100,
92_eei_decisions.md D19). Its domain is `row < ROWS_PER_GLYPH` (R101). -/
def glyphRow (c : Config) (code : Byte) (row : Fin c.rowsPerGlyph) : Byte :=
  if h : Printable c code then
    c.font[(code.toNat - firstPrintable) * c.rowsPerGlyph + row]'(c.fontIndex_lt h.2 row.isLt)
  else
    0

/-- COLOR: the packed colour of a palette index, all 16 bits unchanged (R102, R79). -/
def color (c : Config) (index : PalIndex) : Pixel := c.pal[index.toNat]

end Sys2Proof.Machine
end

