-- ==== Sys2Proof/Machine/Rasterizer.lean ====
section
/-! DEFINITION. The rasterizer, 42_rasterizer.md: from a scanline index to the `8*COLUMNS` pixels of that line: CELLCOLORS (R111),
RESOLVE (R112), LINEPIX (R114). SCANMUX (R110) stands in Operands.lean. -/

namespace Sys2Proof.Machine

/-- CELLCOLORS: foreground and background colour of an attribute (R111). -/
def cellColors (c : Config) (attr : Byte) : Pixel × Pixel := (color c (fgIndex attr), color c (bgIndex attr))

/-- The colour of one dot: `fg` where the bit is set, else `bg` (R112). -/
def dotColor (bitmap : Byte) (fg bg : Pixel) (d : Fin 8) : Pixel := if dot bitmap d then fg else bg

/-- Dot pair `k`: the colours of dot `2k` (even, earlier) and dot `2k + 1` (odd, later) (R64, R112). -/
def dotPair (bitmap : Byte) (fg bg : Pixel) (k : Fin 4) : Pixel × Pixel :=
  (dotColor bitmap fg bg ⟨2 * k, by omega⟩, dotColor bitmap fg bg ⟨2 * k + 1, by omega⟩)

/-- RESOLVE: the bitmap's eight dots walked two at a time, as pixels, leftmost first (R112). -/
def resolve (bitmap : Byte) (fg bg : Pixel) : Vector Pixel 8 :=
  Vector.ofFn fun d : Fin 8 =>
    let pair := dotPair bitmap fg bg ⟨d / 2, by omega⟩
    if d.val % 2 = 0 then pair.1 else pair.2

/-- The eight pixels of one cell on one glyph row: steps b to d of the render algorithm (R114). -/
def cellPixels (c : Config) (cell : Cell) (row : Fin c.rowsPerGlyph) : Vector Pixel 8 :=
  let colours := cellColors c cell.attr
  resolve (glyphRow c cell.glyph row) colours.1 colours.2

/-- LINEPIX: `PIX[8c + d]` is pixel `d` of the cell in column `c` of the scanline's character row (R114). -/
def linePix (c : Config) (grid : Memory) (idx : Nat) (h : idx < c.scanlines) : Vector Pixel c.pixelsPerLine :=
  Vector.ofFn fun p : Fin c.pixelsPerLine =>
    let row : Fin c.rows := ⟨(scanMux c idx).1, c.charRow_lt h⟩
    let glyphRow : Fin c.rowsPerGlyph := ⟨(scanMux c idx).2, Nat.mod_lt _ c.rowsPerGlyph_pos⟩
    let col : Fin c.columns := ⟨p / 8, Nat.div_lt_of_lt_mul (by rw [Nat.mul_comm]; exact p.isLt)⟩
    (cellPixels c (readCell c grid row col) glyphRow)[p.val % 8]'(Nat.mod_lt _ (by decide))

end Sys2Proof.Machine
end

