-- ==== Sys2Proof/Machine/Render.lean ====
section
/-! DEFINITION. The RENDER operation, 44_render.md: LINEPIX and PACK composed, written into the caller's buffer (R135). -/

namespace Sys2Proof.Machine

/-- The Scanline Pixel Run of a valid scanline: a function of the index, the grid and the parameters alone (R138). -/
def scanlineRun (c : Config) (grid : Memory) (idx : Nat) (h : idx < c.scanlines) : Vector Word c.wordsPerLine :=
  pack c (linePix c grid idx h)

/-- `BUF[i] <- W[i]` for every word of the run; the words above it keep what they held (R129, R57). -/
def writeRun (c : Config) (run : Vector Word c.wordsPerLine) (buf : List Word) : List Word :=
  run.toList ++ buf.drop c.wordsPerLine

/-- RENDER: the bounds check comes first (R136, R171), then the buffer contract (R57); then the run is written into the
buffer and its word count returned (R135). The grid is not written (R22). -/
def execRender (idx : Nat) (s : State) : Host.Outcome State Fault Refusal :=
  if h : idx < s.cfg.scanlines then
    let written := { s with buf := writeRun s.cfg (scanlineRun s.cfg s.grid idx h) s.buf }
    s.withBuffer (.next (written.respond .ok (usedWords s.cfg)))
  else
    s.raise (.outOfRange (.scanline idx))

end Sys2Proof.Machine
end

