-- ==== Sys2Proof/Machine/Dispatch.lean ====
section
/-! DEFINITION. One arm for each constructor of `Instr`, each one direct call of its meaning. -/

namespace Sys2Proof.Machine

def exec (i : Instr) (s : State) : Host.Outcome State Fault Refusal :=
  match i with
  | .cget row col => Sys2Proof.Machine.execCget row col s
  | .cset row col glyph attr => Sys2Proof.Machine.execCset row col glyph attr s
  | .render idx => Sys2Proof.Machine.execRender idx s

end Sys2Proof.Machine
end

