-- ==== Sys2Proof/WellFormed.lean ====
section
/-! DEFINITION. Which commands the binary form of R75 can express: `row` and `col` are 6-bit numbers and `idx` a 16-bit
number. An operand beyond the grid is no encoding error (R75): it makes the operation fail with OutOfRange. -/

namespace Sys2Proof

/-- A field of a command word that an operand does not fit (R75). -/
inductive IllFormed where
  /-- `row` is not below 64. -/
  | rowTooWide
  /-- `col` is not below 64. -/
  | colTooWide
  /-- `idx` is not below 65536. -/
  | idxTooWide
deriving DecidableEq, Repr

/-- The 6-bit checks that formats G and S share (R75). -/
def checkPosition (row col : Nat) : Option IllFormed :=
  if 64 ≤ row then some .rowTooWide else if 64 ≤ col then some .colTooWide else none

/-- The first operand of `i` that its field cannot hold, by name; `none` when every one fits (R75). -/
def Instr.illFormed : Instr → Option IllFormed
  | .cget row col => checkPosition row col
  | .cset row col _ _ => checkPosition row col
  | .render idx => if 65536 ≤ idx then some .idxTooWide else none

/-- The command has a binary form (R75). -/
def Instr.wf (i : Instr) : Bool := i.illFormed.isNone

end Sys2Proof
end

