-- ==== Sys2Proof/Decode.lean ====
section
/-! DEFINITION. The binary command interface of 30_encoding.md Part B: the decoder, total on every 32-bit word and rejecting
by name (R75, R76, R78), and after it the encoder, written from the same formats. A command is one word (R81), so no
byte order is involved. -/

namespace Sys2Proof

/-- Why a command word matches none of the three patterns of R76 (R78). -/
inductive DecodeError where
  /-- The opcode in bits 31 to 28 is unassigned (0 and 4 to 15). -/
  | unassignedOpcode (op : BitVec 4)
  /-- A field that R75 says must be 0 is not. -/
  | reservedNotZero
deriving DecidableEq, Repr

/-- Bits 31:28, the opcode (R75). -/
def opcodeField (w : Word) : BitVec 4 := w.extractLsb' 28 4

/-- Bits 27:22 of formats G and S, an unsigned number (R75). -/
def rowField (w : Word) : Nat := (w.extractLsb' 22 6).toNat

/-- Bits 21:16 of formats G and S, an unsigned number (R75). -/
def colField (w : Word) : Nat := (w.extractLsb' 16 6).toNat

/-- Bits 15:8 of format S (R75). -/
def attrField (w : Word) : Byte := w.extractLsb' 8 8

/-- Bits 7:0 of format S (R75). -/
def glyphField (w : Word) : Byte := w.extractLsb' 0 8

/-- Bits 15:0 of format R, an unsigned number (R75). -/
def idxField (w : Word) : Nat := (w.extractLsb' 0 16).toNat

/-- The command a word stands for, or the reason it stands for none (R75, R76, R78). -/
def decode (w : Word) : Except DecodeError Instr :=
  if opcodeField w = 0b0001#4 then
    if w.extractLsb' 0 16 = 0#16 then .ok (.cget (rowField w) (colField w)) else .error .reservedNotZero
  else if opcodeField w = 0b0010#4 then
    .ok (.cset (rowField w) (colField w) (glyphField w) (attrField w))
  else if opcodeField w = 0b0011#4 then
    if w.extractLsb' 16 12 = 0#12 then .ok (.render (idxField w)) else .error .reservedNotZero
  else
    .error (.unassignedOpcode (opcodeField w))

/-- The word of a well-formed command (R75); operands are taken modulo their fields' widths otherwise. -/
def encode : Instr → Word
  | .cget row col => 0b0001#4 ++ BitVec.ofNat 6 row ++ BitVec.ofNat 6 col ++ 0#16
  | .cset row col glyph attr => 0b0010#4 ++ BitVec.ofNat 6 row ++ BitVec.ofNat 6 col ++ attr ++ glyph
  | .render idx => 0b0011#4 ++ 0#12 ++ BitVec.ofNat 16 idx

/-- A row of spec/opcode_table.json: its match and mask (R76). -/
structure OpcodeRow where
  mnemonic : String
  pattern : Word
  mask : Word
deriving DecidableEq, Repr

/-- The opcode map of R76. -/
def opcodeTable : List OpcodeRow :=
  [⟨"CGET", 0x10000000#32, 0xF000FFFF#32⟩,
   ⟨"CSET", 0x20000000#32, 0xF0000000#32⟩,
   ⟨"RENDER", 0x30000000#32, 0xFFFF0000#32⟩]

/-- The table row of a command. -/
def Instr.row : Instr → OpcodeRow
  | .cget _ _ => ⟨"CGET", 0x10000000#32, 0xF000FFFF#32⟩
  | .cset _ _ _ _ => ⟨"CSET", 0x20000000#32, 0xF0000000#32⟩
  | .render _ => ⟨"RENDER", 0x30000000#32, 0xFFFF0000#32⟩

/-- A word of `nbits` bits numbered as the opcode table numbers them, the bits above `nbits` zero (log entry 17). -/
def tableWord (nbits w : Nat) : Word := BitVec.ofNat 32 (w % 2 ^ nbits)

/-- The host's question: what the decoder reads from the table word `w` of `nbits` bits. -/
def decodeTableWord (nbits w : Nat) : Option Instr :=
  if nbits ≤ 32 then (decode (tableWord nbits w)).toOption else none

end Sys2Proof
end

