-- ==== Sys2Proof/Machine/Interface.lean ====
section
/-! DEFINITION. The command interface: how a request reaches the block (30_encoding.md R75, R78), what a reset between two operations and
a reset during one do (70_reset_and_hazards.md R190, R191), and the buffer the host's fetch lends. -/

namespace Sys2Proof.Machine

/-- The operation a request asks for: a word is decoded, an abstract command is taken as it is (R75). -/
def Request.operation (r : Request) : Except DecodeError Instr :=
  match r.command with
  | .word w => decode w
  | .call i => .ok i

/-- The block takes the request `r`: its buffer is lent for the operation, and `rest` is what comes after. -/
def State.accept (s : State) (r : Request) (rest : List Input) : State :=
  { s with inputs := rest, buf := r.buf }

/-- The response to a word that matches no pattern (R78, R166). -/
def State.rejectIllegal (s : State) : Host.Outcome State Fault Refusal := s.raise .illegalCommand

/-- Reset between two operations: the grid is GRID_INIT again, and there is no other effect (R191). -/
def State.resetBetween (s : State) (rest : List Input) : State := { s with grid := [], inputs := rest }

/-- `n` free words, from number `start` on. -/
def freeWords (start n : Nat) : List Word := (List.range n).map fun k => Config.freeWord (start + k)

/-- A reset during an operation that was writing no buffer: no response, the buffer as it was lent, the grid GRID_INIT,
a CSET cut short leaving nothing (R191, 93 U5). -/
def State.abandonUnwritten (s : State) : State :=
  { s with grid := [], buf := [], outputs := .abandoned s.buf :: s.outputs }

/-- A reset during a RENDER that was writing its buffer: as above, but every word of the buffer is a free value (R191,
93 U5; log entries 10 and 11). -/
def State.abandonWriting (s : State) : State :=
  { s with
    grid := []
    buf := []
    outputs := .abandoned (freeWords s.free s.buf.length) :: s.outputs
    free := s.free + s.buf.length }

/-- A reset during the operation `op` of an accepted request (R191). A RENDER of a valid scanline was writing its buffer
and needs the buffer contract (R57); every other operation writes no buffer. -/
def State.abandon (s : State) (op : Except DecodeError Instr) : Host.Outcome State Fault Refusal :=
  match op with
  | .ok (.render idx) =>
    if idx < s.cfg.scanlines then s.withBuffer (.next s.abandonWriting) else .next s.abandonUnwritten
  | .ok (.cget _ _) => .next s.abandonUnwritten
  | .ok (.cset _ _ _ _) => .next s.abandonUnwritten
  | .error _ => .next s.abandonUnwritten

/-- The buffer the host's fetch lends with its command: as many words as a line takes, their contents unknown (R57,
R190; log entry 7). -/
def lentBuffer (c : Config) : List Word := (List.range c.wordsPerLine).map Config.lentWord

end Sys2Proof.Machine
end

