-- ==== Sys2Proof/Machine/Step.lean ====
section
/-! DEFINITION. One step: the next input, whole (operations are atomic and totally ordered, 20_memory.md R50). With no input the block
is idle and stays as it is (10_state.md R27; log entry 6). -/

namespace Sys2Proof.Machine

def step (s : State) : Host.Outcome State Fault Refusal :=
  match s.inputs with
  | [] => .next s
  | .request r :: rest =>
    match r.operation with
    | .ok i => exec i (s.accept r rest)
    | .error _ => (s.accept r rest).rejectIllegal
  | .reset :: rest => .next (s.resetBetween rest)
  | .resetDuring r :: rest => (s.accept r rest).abandon r.operation

/-- The environment gives the block the command word `w` as its next input, with a buffer large enough for a line lent
beside it (log entry 6). -/
def State.withFetchWord (s : State) (nbits w : Nat) : State :=
  { s with inputs := .request ⟨.word (tableWord nbits w), lentBuffer s.cfg⟩ :: s.inputs }

end Sys2Proof.Machine
end

