-- ==== Sys2Proof/Machine/Environment.lean ====
section
/-! DEFINITION. The environment at the block's boundary, as the sequences of inputs it gives (45_dispatch_boundary.md; 30_encoding.md
R82): the pseudo-operations FILL and FRAME, and the dispatch loop. Nothing here is a step of the block (R4). -/

namespace Sys2Proof.Machine

/-- An abstract command with no buffer lent. -/
def callInput (i : Instr) : Input := .request ⟨.call i, []⟩

/-- `FILL glyph, attr`: a CSET of every cell in row-major order (R82). -/
def fillInputs (c : Config) (glyph attr : Byte) : List Input :=
  (List.range c.rows).flatMap fun r => (List.range c.columns).map fun col => callInput (.cset r col glyph attr)

/-- `FRAME`: a RENDER of every scanline in ascending order, each into the buffer lent for it (R82). -/
def frameInputs (c : Config) (buf : List Word) : List Input :=
  (List.range c.scanlines).map fun idx => .request ⟨.call (.render idx), buf⟩

/-- A command an update hook may give: it reaches the block through CGET and CSET alone (R154). -/
inductive HookCommand where
  | get (row col : Nat)
  | set (row col : Nat) (glyph attr : Byte)
deriving DecidableEq, Repr

/-- The command of the block that a hook's command is. -/
def HookCommand.instr : HookCommand → Instr
  | .get row col => .cget row col
  | .set row col glyph attr => .cset row col glyph attr

/-- One scanline request as the dispatch loop acquires it from the scanout engine: the two numbers derived from its
identifier, the buffer, and what the update hook would give the block if it were invoked now (R151, R154). -/
structure ScanlineRequest where
  frame : Nat
  scanline : Nat
  buf : List Word
  hook : List HookCommand
deriving DecidableEq, Repr

/-- One iteration of the dispatch loop: the hook, once, if the frame number differs from the one seen before; then one
RENDER into the acquired buffer (R152). `prev` is the loop's `prev_frame`, `none` before any (R153). -/
def dispatchIteration (prev : Option Nat) (q : ScanlineRequest) : List Input :=
  (if some q.frame = prev then [] else q.hook.map fun k => callInput k.instr) ++
    [.request ⟨.call (.render q.scanline), q.buf⟩]

/-- The dispatch loop over the requests acquired so far, from PREV_FRAME_INIT `prev` (R152, R153, R160). -/
def dispatchLoop : Option Nat → List ScanlineRequest → List Input
  | _, [] => []
  | prev, q :: qs => dispatchIteration prev q ++ dispatchLoop (some q.frame) qs

end Sys2Proof.Machine
end

