-- ==== Sys2Proof/Machine/Flags.lean ====
section
/-! DEFINITION. The block has no flags (10_state.md R28). What an operation reports beside its data is its status, in the response
word of 30_encoding.md R77. -/

namespace Sys2Proof.Machine

/-- The numeric status codes (R77, 92_eei_decisions.md D9). -/
def Status.code : Status → BitVec 4
  | .ok => 0
  | .outOfRange _ => 1
  | .illegalCommand => 2

/-- The response word: status in bits 31:28, zeros in 27:16, payload in 15:0 (R77). -/
def Response.word (r : Response) : Word := r.status.code ++ 0#12 ++ r.payload

/-- The payload is 0 whenever the status is not OK (R77). -/
def Response.wf (r : Response) : Bool := r.status == .ok || r.payload == 0

end Sys2Proof.Machine
end

