-- ==== Sys2Proof/Safety.lean ====
section
/-! DEFINITION. What a safe run is: the invariant of the states between operations, and the duties of the environment
(45_dispatch_boundary.md R157) under which no operation lacks a meaning. -/

namespace Sys2Proof.Machine

/-- A delivered response keeps R77's rule on its payload. -/
def Output.wf : Output → Bool
  | .response r => r.wf
  | .abandoned _ => true

/-- Between operations: the grid is in its canonical form, no buffer is held (R156), and every response delivered so far
is well formed (R77). -/
abbrev State.Inv (s : State) : Prop :=
  Memory.wf s.cfg s.grid ∧ s.buf = [] ∧ ∀ o ∈ s.outputs, o.wf = true

/-- Duty (a) of R157: a RENDER of a valid scanline comes with a buffer of at least WORDS_PER_LINE words. -/
def Request.buffered (c : Config) (r : Request) : Bool :=
  match r.operation with
  | .ok (.render idx) => !decide (idx < c.scanlines) || decide (c.wordsPerLine ≤ r.buf.length)
  | .ok (.cget _ _) => true
  | .ok (.cset _ _ _ _) => true
  | .error _ => true

/-- Duty (a) of R157 for one input. -/
def Input.buffered (c : Config) : Input → Bool
  | .request r => r.buffered c
  | .reset => true
  | .resetDuring r => r.buffered c

/-- Duty (a) of R157 for everything still to come. -/
abbrev State.Buffered (s : State) : Prop := ∀ x ∈ s.inputs, x.buffered s.cfg = true

/-- Duties (c) and (d) of R157: the operands name a scanline or a position that exists. -/
def inRange (c : Config) : Instr → Bool
  | .cget row col => decide (row < c.rows ∧ col < c.columns)
  | .cset row col _ _ => decide (row < c.rows ∧ col < c.columns)
  | .render idx => decide (idx < c.scanlines)

/-! ### What the environment sees of one operation -/

/-- The response an operation delivers, if it answers at all. -/
def lastResponse : Host.Outcome State Fault Refusal → Option Response
  | .next t =>
    match t.outputs with
    | .response r :: _ => some r
    | .abandoned _ :: _ => none
    | [] => none
  | .fault _ => none
  | .refused _ => none

/-- The status and payload an operation answers with (R77). -/
def reply (o : Host.Outcome State Fault Refusal) : Option (Status × BitVec 16) :=
  (lastResponse o).map fun r => (r.status, r.payload)

/-- Word `i` of the buffer an operation hands back (R129). -/
def bufferWord (o : Host.Outcome State Fault Refusal) (i : Nat) : Option Word :=
  (lastResponse o).bind fun r => r.buf[i]?

/-- The colour a reader of the handed-back buffer finds at pixel position `p` (R73). -/
def bufferPixel (o : Host.Outcome State Fault Refusal) (p : Nat) : Option Pixel :=
  if p = 0 then (bufferWord o 0).map highHalf
  else if p = 1 then (bufferWord o 1).map highHalf
  else if p % 2 = 0 then (bufferWord o (p / 2 + 1)).map lowHalf
  else (bufferWord o ((p - 1) / 2 + 1)).map highHalf

end Sys2Proof.Machine
end

