-- ==== Sys2Proof/Certificates/Slice0/Obligations.lean ====
section
/-! DEFINITION. The statements for the provers, one definition each, grouped as spec/ groups its rules. Every one is about every
configuration: a state carries its parameters (log entry 2). -/

open Sys2Proof Sys2Proof.Machine

/-! ### Reset, idling and the parameters -/

/-- R31: after reset every cell holds GRID_INIT of its position. -/
def Obligations.ResetGridIsGridInit : Prop :=
  ∀ (c : Config) (row col : Nat), row < c.rows → col < c.columns →
    (State.resetOf c).cellAt row col = c.gridInit[row * c.columns + col]? ∧
      ((State.resetOf c).cellAt row col).isSome = true

/-- R191, first sentence of its meaning: a reset between two operations puts the grid back to GRID_INIT and does nothing
else. That the reset is itself an input that a step consumes is the model's choice (log entry 6). -/
def Obligations.ResetBetweenOperations : Prop :=
  ∀ (s : State) (rest : List Input), s.inputs = .reset :: rest →
    ∃ t, step s = .next t ∧ t = { s with grid := t.grid, inputs := rest } ∧
      ∀ row col, row < s.cfg.rows → col < s.cfg.columns →
        t.cellAt row col = s.cfg.gridInit[row * s.cfg.columns + col]?

/-- R191: a reset during an operation abandons it. No response is delivered, the grid is GRID_INIT, and the buffer comes
back with its size alone known if a RENDER was writing it, and as it was lent otherwise. Which operations were writing
is DEDUCED and that the buffer is an output is the model's choice (log entries 10 and 11). -/
def Obligations.ResetDuringOperation : Prop :=
  ∀ (s : State) (r : Request) (rest : List Input), s.inputs = .resetDuring r :: rest → r.buffered s.cfg = true →
    ∃ t b, step s = .next t ∧ t.outputs = .abandoned b :: s.outputs ∧ b.length = r.buf.length ∧
      t.inputs = rest ∧ t.cfg = s.cfg ∧ t.buf = [] ∧
      ((∀ idx, r.operation = .ok (.render idx) → s.cfg.scanlines ≤ idx) → b = r.buf) ∧
      ∀ row col, row < s.cfg.rows → col < s.cfg.columns →
        t.cellAt row col = s.cfg.gridInit[row * s.cfg.columns + col]?

/-- With no input the block is idle (R27, R180); that an idle block makes a step that changes nothing is the model's
choice (log entry 6). -/
def Obligations.IdleStepChangesNothing : Prop :=
  ∀ s : State, s.inputs = [] → step s = .next s

/-- The parameters hold their values for the lifetime of the block (R6, R24, R29, R32): no step changes one. -/
def Obligations.ParametersNeverChange : Prop :=
  ∀ s t : State, step s = .next t → t.cfg = s.cfg

/-- The invariant of the states between operations holds right after reset, in every configuration. Two of its clauses
are the model's choice there: the canonical form of the grid (log entry 5), and that no buffer is held, the spec giving
the buffer no reset value (R190; log entry 7). -/
def Obligations.ResetMeetsTheInvariant : Prop :=
  ∀ c : Config, (State.resetOf c).Inv

/-- Every step keeps the invariant: the grid in its canonical form (the model's choice, log entry 5), no buffer held
(R156; that this is the empty list is log entry 7), every response well formed (R77). -/
def Obligations.StepKeepsTheInvariant : Prop :=
  ∀ s t : State, s.Inv → step s = .next t → t.Inv

/-! ### Encodings -/

/-- Decoding an encoded command gives it back, with every operand at every value its field admits (R75). -/
def Obligations.DecodeOfEncode : Prop :=
  ∀ i : Instr, i.wf = true → decode (encode i) = .ok i

/-- A word has one meaning: a command it decodes to is well formed and encodes to that word (R75). -/
def Obligations.EncodeOfDecode : Prop :=
  ∀ (w : Word) (i : Instr), decode w = .ok i → i.wf = true ∧ encode i = w

/-- Words written out from R75, with what they stand for. -/
def Obligations.KnownWordsDecode : Prop :=
  decode 0x10410000#32 = .ok (.cget 1 1) ∧
  decode 0x1FFF0000#32 = .ok (.cget 63 63) ∧
  decode 0x23A74E7F#32 = .ok (.cset 14 39 0x7F 0x4E) ∧
  decode 0x300000EF#32 = .ok (.render 239) ∧
  decode 0x00000000#32 = .error (.unassignedOpcode 0) ∧
  decode 0x10000001#32 = .error .reservedNotZero ∧
  decode 0x30010000#32 = .error .reservedNotZero

/-- R76: the opcode map, by match and mask, the unassigned opcodes, and that no word matches two patterns. -/
def Obligations.OpcodeMapByMatchAndMask : Prop :=
  (∀ w : Word, (∃ row col, decode w = .ok (.cget row col)) ↔ w &&& 0xF000FFFF#32 = 0x10000000#32) ∧
  (∀ w : Word, (∃ row col glyph attr, decode w = .ok (.cset row col glyph attr)) ↔
    w &&& 0xF0000000#32 = 0x20000000#32) ∧
  (∀ w : Word, (∃ idx, decode w = .ok (.render idx)) ↔ w &&& 0xFFFF0000#32 = 0x30000000#32) ∧
  (∀ w : Word, w.toNat / 2 ^ 28 = 0 ∨ 4 ≤ w.toNat / 2 ^ 28 → ∃ e, decode w = .error e) ∧
  ∀ w : Word,
    ¬ (w &&& 0xF000FFFF#32 = 0x10000000#32 ∧ w &&& 0xF0000000#32 = 0x20000000#32) ∧
    ¬ (w &&& 0xF000FFFF#32 = 0x10000000#32 ∧ w &&& 0xFFFF0000#32 = 0x30000000#32) ∧
    ¬ (w &&& 0xF0000000#32 = 0x20000000#32 ∧ w &&& 0xFFFF0000#32 = 0x30000000#32)

/-- R77: the fields of a response word, and the three status codes. -/
def Obligations.ResponseWordFields : Prop :=
  (∀ r : Response, r.word.extractLsb' 28 4 = r.status.code ∧ r.word.extractLsb' 16 12 = 0#12 ∧
    r.word.extractLsb' 0 16 = r.payload) ∧
  Status.ok.code = 0#4 ∧ (∀ info, (Status.outOfRange info).code = 1#4) ∧ Status.illegalCommand.code = 2#4

/-- R61: the low nibble of an attribute is the foreground index, the high nibble the background index. -/
def Obligations.AttributeNibbles : Prop :=
  ∀ attr : Byte, (fgIndex attr).toNat = attr.toNat % 16 ∧ (bgIndex attr).toNat = attr.toNat / 16

/-- R66: where the fields of a palette colour lie: they make up the whole value. -/
def Obligations.ColourFields : Prop :=
  ∀ colour : Pixel, blueField colour ++ greenField colour ++ reservedBit colour ++ redField colour = colour

/-- R74: an output word assembled by shift and or is the concatenation of its halves; neither half disturbs the other. -/
def Obligations.WordHalvesDoNotMix : Prop :=
  ∀ hi lo : BitVec 16, wordOf hi lo = hi ++ lo ∧ lowHalf (wordOf hi lo) = lo ∧ highHalf (wordOf hi lo) = hi

/-- R44: equality of two byte images is equality of the two word lists. The byte order itself rests on log entry 15. -/
def Obligations.ByteImagesEqualWhenWordsAre : Prop :=
  ∀ ws ws' : List Word, byteImage ws = byteImage ws' ↔ ws = ws'

/-- R9 and R14: the derived values fit the fields that carry them. -/
def Obligations.DerivedValuesFitTheirFields : Prop :=
  ∀ c : Config, 5 ≤ c.runCountField ∧ c.runCountField ≤ 65533 ∧ (BitVec.ofNat 16 c.runCountField).toNat + 3 = c.columns * 8 ∧
    (usedWords c).toNat = c.columns * 4 + 2 ∧ 4 ≤ c.lastPixelWord ∧ c.eolWord ≤ 32769

/-! ### The grid store -/

/-- R90: CGET inside the grid answers OK with the pair `(glyph, attr)` of the cell and changes nothing else; outside it
answers OutOfRange and returns no data. Repeating it gives the same answer. -/
def Obligations.CgetReturnsTheCell : Prop :=
  (∀ (s : State) (row col : Nat), row < s.cfg.rows → col < s.cfg.columns →
    ∃ cell, s.cellAt row col = some cell ∧
      exec (.cget row col) s = .next { s with
        buf := []
        outputs := .response ⟨.ok, cell.attr ++ cell.glyph, s.buf⟩ :: s.outputs }) ∧
  (∀ (s : State) (row col : Nat), s.cfg.rows ≤ row ∨ s.cfg.columns ≤ col →
    exec (.cget row col) s = .next { s with
      buf := []
      outputs := .response ⟨.outOfRange (.position row col), 0, s.buf⟩ :: s.outputs }) ∧
  ∀ (s t : State) (row col : Nat), exec (.cget row col) s = .next t →
    reply (exec (.cget row col) t) = reply (exec (.cget row col) s)

/-- R91: CSET inside the grid answers OK, the cell written holds the pair given, every other cell and every byte of the
grid outside the two of that cell keep their values, and nothing else of the state changes. -/
def Obligations.CsetWritesOneCell : Prop :=
  ∀ (s : State) (row col : Nat) (glyph attr : Byte) (hr : row < s.cfg.rows) (hc : col < s.cfg.columns),
    ∃ t, exec (.cset row col glyph attr) s = .next t ∧
      t = { s with grid := t.grid, buf := [], outputs := .response ⟨.ok, 0, s.buf⟩ :: s.outputs } ∧
      t.cellAt row col = some ⟨glyph, attr⟩ ∧
      (∀ row' col', ¬ (row' = row ∧ col' = col) → t.cellAt row' col' = s.cellAt row' col') ∧
      ∀ a : Nat, a ≠ (glyphAddr s.cfg ⟨row, hr⟩ ⟨col, hc⟩).val → a ≠ (attrAddr s.cfg ⟨row, hr⟩ ⟨col, hc⟩).val →
        t.byteAt a = s.byteAt a

/-- R91, R165: CSET outside the grid answers OutOfRange and leaves the grid unmodified, with all the rest. -/
def Obligations.CsetOutsideTheGridChangesNothing : Prop :=
  ∀ (s : State) (row col : Nat) (glyph attr : Byte), s.cfg.rows ≤ row ∨ s.cfg.columns ≤ col →
    exec (.cset row col glyph attr) s = .next { s with
      buf := []
      outputs := .response ⟨.outOfRange (.position row col), 0, s.buf⟩ :: s.outputs }

/-- R91: writing the value a cell already holds is legal and changes nothing: in canonical form the grid is the same
data. -/
def Obligations.CsetOfTheSameValueKeepsTheGrid : Prop :=
  ∀ (s : State) (row col : Nat) (cell : Cell), Memory.wf s.cfg s.grid → s.cellAt row col = some cell →
    exec (.cset row col cell.glyph cell.attr) s = .next { s with
      buf := []
      outputs := .response ⟨.ok, 0, s.buf⟩ :: s.outputs }

/-- R93: the laws of the store, between two operations. -/
def Obligations.StoreLaws : Prop :=
  (∀ (s : State) (row col : Nat) (v : Cell), row < s.cfg.rows → col < s.cfg.columns →
    ∃ t, exec (.cset row col v.glyph v.attr) s = .next t ∧
      reply (exec (.cset row col v.glyph v.attr) s) = some (.ok, 0) ∧
      reply (exec (.cget row col) t) = some (.ok, v.attr ++ v.glyph) ∧
      ∀ row' col', ¬ (row' = row ∧ col' = col) →
        reply (exec (.cget row' col') t) = reply (exec (.cget row' col') s)) ∧
  (∀ (s t : State) (row col : Nat) (v : Cell), s.cfg.rows ≤ row ∨ s.cfg.columns ≤ col →
    exec (.cset row col v.glyph v.attr) s = .next t → t.grid = s.grid) ∧
  (∀ (s t : State) (row col : Nat), exec (.cget row col) s = .next t → t.grid = s.grid) ∧
  ∀ (s t : State) (i : Instr), exec i s = .next t → t.cfg = s.cfg

/-- R22: the grid is written only by a CSET inside its bounds and by reset. -/
def Obligations.OnlyCsetAndResetWriteTheGrid : Prop :=
  ∀ s t : State, step s = .next t → t.grid ≠ s.grid →
    (∃ r rest row col glyph attr, s.inputs = .request r :: rest ∧ r.operation = .ok (.cset row col glyph attr) ∧
      row < s.cfg.rows ∧ col < s.cfg.columns) ∨
    (∃ rest, s.inputs = .reset :: rest) ∨ ∃ r rest, s.inputs = .resetDuring r :: rest

/-! ### The lookups and the rasterizer -/

/-- R100: a printable code's stored bitmap row, 0 for every other code. -/
def Obligations.GlyphRowLooksUpTheFont : Prop :=
  ∀ (c : Config) (code : Byte) (row : Fin c.rowsPerGlyph),
    (0x20 ≤ code.toNat ∧ code.toNat ≤ c.lastPrintable →
      c.font[(code.toNat - 0x20) * c.rowsPerGlyph + row]? = some (glyphRow c code row)) ∧
    (¬ (0x20 ≤ code.toNat ∧ code.toNat ≤ c.lastPrintable) → glyphRow c code row = 0x00#8)

/-- R111: foreground from `attr & 0xF`, background from `attr >> 4`, both straight from the palette. -/
def Obligations.CellColoursFromTheNibbles : Prop :=
  ∀ (c : Config) (attr : Byte),
    c.pal[(attr &&& 0xF#8).toNat]? = some (cellColors c attr).1 ∧ c.pal[(attr >>> 4).toNat]? = some (cellColors c attr).2

/-- R112: the walk in dot pairs gives pixel `d` the foreground exactly where bit `7 - d` is set. -/
def Obligations.ResolveSelectsByTheBit : Prop :=
  ∀ (bitmap : Byte) (fg bg : Pixel),
    (∀ (d : Nat) (h : d < 8), (resolve bitmap fg bg)[d] = if bitmap.getLsbD (7 - d) then fg else bg) ∧
    ∀ (k : Nat) (h : k < 4),
      (resolve bitmap fg bg)[2 * k] = (if bitmap.getLsbD (7 - 2 * k) then fg else bg) ∧
      (resolve bitmap fg bg)[2 * k + 1] = (if bitmap.getLsbD (6 - 2 * k) then fg else bg)

/-- R110: the division is exact, the glyph row is a row of a glyph, and the character row is beyond the grid exactly when
the scanline is. -/
def Obligations.ScanMuxSplitsTheIndex : Prop :=
  ∀ (c : Config) (idx : Nat),
    (scanMux c idx).1 = idx / c.rowsPerGlyph ∧ (scanMux c idx).2 = idx % c.rowsPerGlyph ∧
    idx = (scanMux c idx).1 * c.rowsPerGlyph + (scanMux c idx).2 ∧ (scanMux c idx).2 < c.rowsPerGlyph ∧
    (c.rows ≤ (scanMux c idx).1 ↔ c.scanlines ≤ idx)

/-- R115: the closed form of one pixel of a line. -/
def Obligations.PixelClosedForm : Prop :=
  ∀ (s : State) (idx : Nat) (h : idx < s.cfg.scanlines) (p : Nat) (hp : p < s.cfg.pixelsPerLine),
    ∃ cell, s.cellAt (idx / s.cfg.rowsPerGlyph) (p / 8) = some cell ∧
      some (linePix s.cfg s.grid idx h)[p] =
        if (glyphRow s.cfg cell.glyph ⟨idx % s.cfg.rowsPerGlyph, Nat.mod_lt _ s.cfg.rowsPerGlyph_pos⟩).getLsbD
            (7 - p % 8)
        then s.cfg.pal[(cell.attr &&& 0xF#8).toNat]?
        else s.cfg.pal[(cell.attr >>> 4).toNat]?

/-- R103: on every scanline of its character row a cell with a non-printable code is solid background, whatever its
foreground index. -/
def Obligations.NonPrintableCodeIsSolidBackground : Prop :=
  ∀ (s : State) (idx : Nat) (h : idx < s.cfg.scanlines) (col : Nat) (cell : Cell),
    s.cellAt (idx / s.cfg.rowsPerGlyph) col = some cell →
    ¬ (0x20 ≤ cell.glyph.toNat ∧ cell.glyph.toNat ≤ s.cfg.lastPrintable) →
    ∀ (d : Nat), d < 8 → ∀ hp : 8 * col + d < s.cfg.pixelsPerLine,
      some (linePix s.cfg s.grid idx h)[8 * col + d] = s.cfg.pal[(cell.attr >>> 4).toNat]?

/-- R116: the pixels of a line are a function of the index, the grid's cells (those of its character row alone), FONT and
PAL, at a given geometry; a CSET to another row changes none of them. -/
def Obligations.LineIgnoresOtherRows : Prop :=
  (∀ (s s' : State) (idx : Nat) (h : idx < s.cfg.scanlines) (h' : idx < s'.cfg.scanlines),
    s.cfg.font = s'.cfg.font → s.cfg.pal = s'.cfg.pal → s.cfg.columns = s'.cfg.columns →
    s.cfg.rowsPerGlyph = s'.cfg.rowsPerGlyph →
    (∀ col, s.cellAt (idx / s.cfg.rowsPerGlyph) col = s'.cellAt (idx / s.cfg.rowsPerGlyph) col) →
    (linePix s.cfg s.grid idx h).toList = (linePix s'.cfg s'.grid idx h').toList) ∧
  ∀ (s t : State) (row col : Nat) (glyph attr : Byte) (idx : Nat) (h : idx < s.cfg.scanlines),
    exec (.cset row col glyph attr) s = .next t → row ≠ idx / s.cfg.rowsPerGlyph →
    linePix s.cfg t.grid idx h = linePix s.cfg s.grid idx h

/-! ### The packer -/

/-- R130: the invariants of every packed line; reading it back by R73 gives every pixel but the last, which is 0. -/
def Obligations.PackedLineInvariants : Prop :=
  ∀ (c : Config) (pix : Vector Pixel c.pixelsPerLine),
    (pack c pix).toList.length = 4 * c.columns + 2 ∧
    (∃ w, (pack c pix)[4 * c.columns]? = some w ∧ highHalf w = 0x0000#16) ∧
    (∃ w, (pack c pix)[0]? = some w ∧ lowHalf w = c.rawRunMarker) ∧
    (∃ w, (pack c pix)[1]? = some w ∧ (lowHalf w).toNat = 8 * c.columns - 3) ∧
    (pack c pix)[4 * c.columns + 1]? = some c.endOfLineMarker ∧
    ∀ p : Fin c.pixelsPerLine,
      decodedPixel c (pack c pix) p = if p.val = 8 * c.columns - 1 then 0x0000#16 else pix[p]

/-- R128: the packed line does not depend on the last pixel at all, and determines every other one. -/
def Obligations.PackDropsTheLastPixelAlone : Prop :=
  ∀ (c : Config) (pix pix' : Vector Pixel c.pixelsPerLine),
    pack c pix = pack c pix' ↔ ∀ p : Fin c.pixelsPerLine, p.val ≠ 8 * c.columns - 1 → pix[p] = pix'[p]

/-! ### RENDER -/

/-- R137, with R115: RENDER of a valid scanline into a buffer of at least WORDS_PER_LINE words answers OK with
`used = 4*COLUMNS + 2`, hands the buffer back with every word of the run at its index and the words above untouched,
and changes nothing else. -/
def Obligations.RenderClosedForm : Prop :=
  ∀ (s : State) (idx : Nat), idx < s.cfg.scanlines → s.cfg.columns * 4 + 2 ≤ s.buf.length →
    ∃ (pix : Nat → Pixel) (used : BitVec 16) (b : List Word),
      (∀ p, p < 8 * s.cfg.columns → ∃ cell, s.cellAt (idx / s.cfg.rowsPerGlyph) (p / 8) = some cell ∧
        some (pix p) =
          if (glyphRow s.cfg cell.glyph ⟨idx % s.cfg.rowsPerGlyph, Nat.mod_lt _ s.cfg.rowsPerGlyph_pos⟩).getLsbD
              (7 - p % 8)
          then s.cfg.pal[(cell.attr &&& 0xF#8).toNat]?
          else s.cfg.pal[(cell.attr >>> 4).toNat]?) ∧
      exec (.render idx) s = .next { s with
        buf := []
        outputs := .response ⟨.ok, used, b⟩ :: s.outputs } ∧
      used.toNat = 4 * s.cfg.columns + 2 ∧
      b.length = s.buf.length ∧
      b[0]? = some (pix 0 ++ s.cfg.rawRunMarker) ∧
      b[1]? = some (pix 1 ++ BitVec.ofNat 16 (8 * s.cfg.columns - 3)) ∧
      (∀ i, 2 ≤ i → i ≤ 4 * s.cfg.columns - 1 → b[i]? = some (pix (2 * i - 1) ++ pix (2 * i - 2))) ∧
      b[4 * s.cfg.columns]? = some (0x0000#16 ++ pix (8 * s.cfg.columns - 2)) ∧
      b[4 * s.cfg.columns + 1]? = some s.cfg.endOfLineMarker ∧
      ∀ i, 4 * s.cfg.columns + 2 ≤ i → b[i]? = s.buf[i]?

/-- R136: RENDER outside the scanlines answers OutOfRange, writes no buffer word, changes no state and reports no count,
whatever buffer was lent. -/
def Obligations.RenderOutsideTheScanlines : Prop :=
  ∀ (s : State) (idx : Nat), s.cfg.scanlines ≤ idx →
    exec (.render idx) s = .next { s with
      buf := []
      outputs := .response ⟨.outOfRange (.scanline idx), 0, s.buf⟩ :: s.outputs }

/-- R57, R168: the one thing the model gives no meaning is a RENDER of a valid scanline into too small a buffer. -/
def Obligations.RefusedExactlyForSmallBuffers : Prop :=
  ∀ (i : Instr) (s : State) (r : Refusal), exec i s = .refused r ↔
    r = .bufferTooSmall ∧ ∃ idx, i = .render idx ∧ idx < s.cfg.scanlines ∧ s.buf.length < s.cfg.columns * 4 + 2

/-- R138: what RENDER answers and the run it writes are a function of the index, the grid's cells, FONT, PAL, the two
markers, COLUMNS and ROWS_PER_GLYPH, whatever else differs (the reset contents of the grid, earlier operations, the
buffer's previous contents); and two requests to render the same scanline, one after the other, are answered with equal
responses and equal buffers, the two buffers lent being alike. -/
def Obligations.RenderIsAFunctionOfTheGrid : Prop :=
  (∀ (s s' : State) (idx : Nat), idx < s.cfg.scanlines → s.cfg.font = s'.cfg.font → s.cfg.pal = s'.cfg.pal →
    s.cfg.rawRunMarker = s'.cfg.rawRunMarker → s.cfg.endOfLineMarker = s'.cfg.endOfLineMarker →
    s.cfg.columns = s'.cfg.columns → s.cfg.rowsPerGlyph = s'.cfg.rowsPerGlyph →
    (∀ row col, s.cellAt row col = s'.cellAt row col) →
    s.cfg.columns * 4 + 2 ≤ s.buf.length → s.cfg.columns * 4 + 2 ≤ s'.buf.length →
    ∃ a : Status × BitVec 16, reply (exec (.render idx) s) = some a ∧ reply (exec (.render idx) s') = some a ∧
      ∀ i, i < s.cfg.columns * 4 + 2 →
        ∃ w, bufferWord (exec (.render idx) s) i = some w ∧ bufferWord (exec (.render idx) s') i = some w) ∧
  ∀ (s : State) (idx : Nat) (buf : List Word) (rest : List Input), idx < s.cfg.scanlines →
    s.cfg.columns * 4 + 2 ≤ buf.length →
    s.inputs = .request ⟨.call (.render idx), buf⟩ :: .request ⟨.call (.render idx), buf⟩ :: rest →
    ∃ t r, Host.Core.run Sys2Proof.core 2 s = .next t ∧ t.outputs = .response r :: .response r :: s.outputs ∧
      r.status = .ok ∧ t.grid = s.grid ∧ t.inputs = rest

/-- R139: which cells matter: words 0 and 1 depend on the cell of column 0 of the character row alone, word `i` of the
other pixel words on that of column `(i - 1) div 4` alone, the end-of-line word on none; and the cell of the last
column, its foreground index included, affects at most pixels `8*COLUMNS - 8` to `8*COLUMNS - 2`. -/
def Obligations.RenderWordsDependOnOneCell : Prop :=
  ∀ (s s' t t' : State) (idx : Nat), s.cfg = s'.cfg → idx < s.cfg.scanlines →
    exec (.render idx) s = .next t → exec (.render idx) s' = .next t' →
    (∀ i, i ≤ 1 → s.cellAt (idx / s.cfg.rowsPerGlyph) 0 = s'.cellAt (idx / s.cfg.rowsPerGlyph) 0 →
      bufferWord (exec (.render idx) s) i = bufferWord (exec (.render idx) s') i) ∧
    (∀ i, 2 ≤ i → i ≤ 4 * s.cfg.columns →
      s.cellAt (idx / s.cfg.rowsPerGlyph) ((i - 1) / 4) = s'.cellAt (idx / s.cfg.rowsPerGlyph) ((i - 1) / 4) →
      bufferWord (exec (.render idx) s) i = bufferWord (exec (.render idx) s') i) ∧
    bufferWord (exec (.render idx) s) (4 * s.cfg.columns + 1) =
      bufferWord (exec (.render idx) s') (4 * s.cfg.columns + 1) ∧
    ((∀ col, col ≠ s.cfg.columns - 1 →
        s.cellAt (idx / s.cfg.rowsPerGlyph) col = s'.cellAt (idx / s.cfg.rowsPerGlyph) col) →
      ∀ p, p < 8 * s.cfg.columns → ¬ (8 * s.cfg.columns - 8 ≤ p ∧ p ≤ 8 * s.cfg.columns - 2) →
        bufferPixel (exec (.render idx) s) p = bufferPixel (exec (.render idx) s') p)

/-- 95_test_vectors.md D6: a CSET changes a later RENDER only on the scanlines of its row, and there only words
`4c + 1` to `4c + 4`, and word 0 when `c` is 0. -/
def Obligations.CsetChangesOnlyItsWords : Prop :=
  ∀ (s t u u' : State) (row col : Nat) (glyph attr : Byte) (idx : Nat) (b b' : List Word), idx < s.cfg.scanlines →
    exec (.cset row col glyph attr) s = .next t →
    exec (.render idx) { s with buf := b } = .next u → exec (.render idx) { t with buf := b' } = .next u' →
    ∀ i, i < 4 * s.cfg.columns + 2 →
      (row ≠ idx / s.cfg.rowsPerGlyph ∨ ¬ (4 * col + 1 ≤ i ∧ i ≤ 4 * col + 4 ∨ col = 0 ∧ i = 0)) →
      bufferWord (exec (.render idx) { t with buf := b' }) i = bufferWord (exec (.render idx) { s with buf := b }) i

/-- R51: a CSET of a cell of the scanline's character row completes, and the next RENDER of that scanline completes and
shows it: read back from its buffer, the pixels of the cell's column are those of the pair written, at every position
but the line's last, which the line-end constraint forces; before packing (LINEPIX) at that position too. -/
def Obligations.RenderSeesTheCellWritten : Prop :=
  ∀ (s : State) (row col : Nat) (glyph attr : Byte) (idx : Nat) (b : List Word) (h : idx < s.cfg.scanlines),
    row = idx / s.cfg.rowsPerGlyph → col < s.cfg.columns → s.cfg.columns * 4 + 2 ≤ b.length →
    ∃ t u, exec (.cset row col glyph attr) s = .next t ∧ exec (.render idx) { t with buf := b } = .next u ∧
      reply (exec (.cset row col glyph attr) s) = some (.ok, 0) ∧
      ∀ d : Nat, d < 8 →
        let colour : Option Pixel :=
          if (glyphRow s.cfg glyph ⟨idx % s.cfg.rowsPerGlyph, Nat.mod_lt _ s.cfg.rowsPerGlyph_pos⟩).getLsbD (7 - d)
          then s.cfg.pal[(attr &&& 0xF#8).toNat]?
          else s.cfg.pal[(attr >>> 4).toNat]?
        (8 * col + d ≠ 8 * s.cfg.columns - 1 →
          bufferPixel (exec (.render idx) { t with buf := b }) (8 * col + d) = colour) ∧
        ∀ hp : 8 * col + d < s.cfg.pixelsPerLine, some (linePix s.cfg t.grid idx h)[8 * col + d] = colour

/-- R65: every pixel of a rendered line is a palette entry unchanged, but for the forced 0x0000 in the last position. -/
def Obligations.RenderedPixelsComeFromThePalette : Prop :=
  ∀ (s t : State) (idx : Nat), idx < s.cfg.scanlines → exec (.render idx) s = .next t →
    (∀ p, p < 8 * s.cfg.columns - 1 →
      ∃ k : Fin 16, bufferPixel (exec (.render idx) s) p = some s.cfg.pal[k]) ∧
    bufferPixel (exec (.render idx) s) (8 * s.cfg.columns - 1) = some 0x0000#16

/-! ### Requests, responses and failures -/

/-- A step runs the command decoded: where the next request's word decodes to `i`, or names `i` outright, the step is
`exec i` on the state with that request taken and its buffer lent. -/
def Obligations.StepRunsTheDecodedCommand : Prop :=
  (∀ (s : State) (w : Word) (buf : List Word) (rest : List Input) (i : Instr),
    s.inputs = .request ⟨.word w, buf⟩ :: rest → decode w = .ok i →
    step s = exec i { s with inputs := rest, buf := buf }) ∧
  ∀ (s : State) (buf : List Word) (rest : List Input) (i : Instr),
    s.inputs = .request ⟨.call i, buf⟩ :: rest → step s = exec i { s with inputs := rest, buf := buf }

/-- 92 D2: the binary and the abstract form of a command agree wherever the binary form can express the operands. -/
def Obligations.BinaryAndAbstractFormsAgree : Prop :=
  ∀ (s : State) (i : Instr) (buf : List Word) (rest : List Input), i.wf = true →
    step { s with inputs := .request ⟨.word (encode i), buf⟩ :: rest } =
      step { s with inputs := .request ⟨.call i, buf⟩ :: rest }

/-- R78: a command word that matches none of the three patterns is answered IllegalCommand; no state changes and no
buffer word is written. -/
def Obligations.IllegalCommandIsAnswered : Prop :=
  ∀ (s : State) (w : Word) (buf : List Word) (rest : List Input), s.inputs = .request ⟨.word w, buf⟩ :: rest →
    w &&& 0xF000FFFF#32 ≠ 0x10000000#32 → w &&& 0xF0000000#32 ≠ 0x20000000#32 → w &&& 0xFFFF0000#32 ≠ 0x30000000#32 →
    step s = .next { s with
      inputs := rest
      buf := []
      outputs := .response ⟨.illegalCommand, 0, buf⟩ :: s.outputs }

/-- R77: every command that is answered gets one response, whose payload is 0 unless its status is OK. -/
def Obligations.OneResponseForEachCommand : Prop :=
  ∀ (s t : State) (r : Request) (rest : List Input), s.inputs = .request r :: rest → step s = .next t →
    ∃ a : Response, t.outputs = .response a :: s.outputs ∧ t.inputs = rest ∧ (a.status ≠ .ok → a.payload = 0) ∧
      a.buf.length = r.buf.length

/-- R172: a failure is precise: the state is exactly what it was before the operation, no buffer word has been written,
and the block accepts the next command. -/
def Obligations.FailuresArePrecise : Prop :=
  ∀ (s t : State) (r : Request) (rest : List Input) (a : Response), s.inputs = .request r :: rest →
    step s = .next t → t.outputs = .response a :: s.outputs → a.status ≠ .ok →
    t = { s with inputs := rest, buf := [], outputs := .response ⟨a.status, 0, r.buf⟩ :: s.outputs }

/-- R165, R167: a command that has a meaning is answered OK exactly when its operands name a position or scanline that
exists. -/
def Obligations.OkExactlyInRange : Prop :=
  ∀ (s : State) (r : Request) (rest : List Input) (i : Instr), s.inputs = .request r :: rest → r.operation = .ok i →
    r.buffered s.cfg = true →
    ∃ t a, step s = .next t ∧ t.outputs = .response a :: s.outputs ∧
      (a.status = .ok ↔ inRange s.cfg i = true) ∧ (inRange s.cfg i = false → ∃ info, a.status = .outOfRange info)

/-! ### Whole runs -/

/-- R141, R157(a): when every RENDER of a valid scanline comes with its buffer, a run of any commands and resets answers
to the end, one output for each input but the resets between operations. -/
def Obligations.BufferedRunsComplete : Prop :=
  ∀ s : State, s.Buffered →
    ∃ t, Host.Core.run Sys2Proof.core s.inputs.length s = .next t ∧ t.inputs = [] ∧ t.cfg = s.cfg ∧
      t.outputs.length = s.outputs.length + s.inputs.countP (fun x => x != Input.reset)

/-- R82: FILL sets every cell of the grid. -/
def Obligations.FillSetsEveryCell : Prop :=
  ∀ (s : State) (glyph attr : Byte), s.inputs = fillInputs s.cfg glyph attr →
    ∃ t, Host.Core.run Sys2Proof.core (s.cfg.rows * s.cfg.columns) s = .next t ∧ t.inputs = [] ∧ t.cfg = s.cfg ∧
      ∀ row col, row < s.cfg.rows → col < s.cfg.columns → t.cellAt row col = some ⟨glyph, attr⟩

/-- R82, R138: FRAME answers every scanline in order from one and the same grid. -/
def Obligations.FrameRendersEveryScanline : Prop :=
  ∀ (s : State) (buf : List Word), s.inputs = frameInputs s.cfg buf → s.cfg.columns * 4 + 2 ≤ buf.length →
    ∃ t, Host.Core.run Sys2Proof.core s.cfg.scanlines s = .next t ∧ t.inputs = [] ∧ t.grid = s.grid ∧
      t.outputs.length = s.cfg.scanlines + s.outputs.length ∧
      ∀ idx, idx < s.cfg.scanlines → ∃ a : Response,
        t.outputs[s.cfg.scanlines - 1 - idx]? = some (.response a) ∧
        lastResponse (exec (.render idx) { s with buf := buf }) = some a ∧ a.status = .ok

/-- R152, R155: over scanline requests of one frame the dispatch loop invokes the hook at most once, before the first
RENDER of the frame, and only if that frame was not the one seen before; between the RENDERs there is no command. -/
def Obligations.HookOnceForEachFrame : Prop :=
  ∀ (prev : Option Nat) (q : ScanlineRequest) (qs : List ScanlineRequest), (∀ q' ∈ qs, q'.frame = q.frame) →
    dispatchLoop prev (q :: qs) =
      (if prev = some q.frame then [] else q.hook.map fun k => callInput k.instr) ++
        (q :: qs).map fun q' => Input.request ⟨.call (.render q'.scanline), q'.buf⟩
end

