-- ==== Sys2Proof/Laws/Decode.lean ====
section
/-! SUPPORT. The fields of a command word and the encoded words as numbers, so that facts about the encoding are facts of linear
arithmetic over division and remainder. -/

namespace Sys2Proof

/-- A concatenation as a number: no carry crosses from the lower part. -/
theorem toNat_append_eq_add {n m : Nat} (x : BitVec n) (y : BitVec m) :
    (x ++ y).toNat = x.toNat * 2 ^ m + y.toNat := by
  rw [BitVec.toNat_append, ← Nat.shiftLeft_add_eq_or_of_lt y.isLt, Nat.shiftLeft_eq]

/-- A field of a word as a number. -/
theorem toNat_field (w : Word) (lo n : Nat) : (w.extractLsb' lo n).toNat = w.toNat / 2 ^ lo % 2 ^ n := by
  rw [BitVec.extractLsb'_toNat, Nat.shiftRight_eq_div_pow]

variable (w : Word) (row col idx : Nat) (glyph attr : Byte)

theorem opcodeField_toNat : (opcodeField w).toNat = w.toNat / 2 ^ 28 % 16 := toNat_field w 28 4

theorem rowField_eq : rowField w = w.toNat / 2 ^ 22 % 64 := toNat_field w 22 6

theorem colField_eq : colField w = w.toNat / 2 ^ 16 % 64 := toNat_field w 16 6

theorem attrField_toNat : (attrField w).toNat = w.toNat / 2 ^ 8 % 256 := toNat_field w 8 8

theorem glyphField_toNat : (glyphField w).toNat = w.toNat % 256 := by simp [glyphField]

theorem idxField_eq : idxField w = w.toNat % 65536 := by simp [idxField]

theorem encode_cget_toNat :
    (encode (.cget row col)).toNat = 2 ^ 28 + row % 64 * 2 ^ 22 + col % 64 * 2 ^ 16 := by
  show (0b0001#4 ++ BitVec.ofNat 6 row ++ BitVec.ofNat 6 col ++ 0#16).toNat = _
  simp only [toNat_append_eq_add, BitVec.toNat_ofNat]
  omega

theorem encode_cset_toNat :
    (encode (.cset row col glyph attr)).toNat =
      2 * 2 ^ 28 + row % 64 * 2 ^ 22 + col % 64 * 2 ^ 16 + attr.toNat * 2 ^ 8 + glyph.toNat := by
  show (0b0010#4 ++ BitVec.ofNat 6 row ++ BitVec.ofNat 6 col ++ attr ++ glyph).toNat = _
  simp only [toNat_append_eq_add, BitVec.toNat_ofNat]
  omega

theorem encode_render_toNat : (encode (.render idx)).toNat = 3 * 2 ^ 28 + idx % 65536 := by
  show (0b0011#4 ++ 0#12 ++ BitVec.ofNat 16 idx).toNat = _
  simp only [toNat_append_eq_add, BitVec.toNat_ofNat]
  omega

end Sys2Proof
end

