-- ==== Sys2Proof/Laws/Memory.lean ====
section
/-! SUPPORT. What each memory operation does, once: reads after writes, and the canonical form `Memory.wf` kept. -/

namespace Sys2Proof.Machine

variable {c : Config} {m : Memory} {a a' : Nat} {b : Byte}

/-! ### Listed bytes -/

@[simp] theorem find_nil : Memory.find [] a = none := rfl

theorem find_cons (e : Host.Cell) :
    Memory.find (e :: m) a = if e.1 = a then some e.2 else Memory.find m a := rfl

theorem find_put : Memory.find (Memory.put m a b) a' = if a = a' then some b else Memory.find m a' := by
  induction m with
  | nil => simp [Memory.put, find_cons]
  | cons e m ih =>
    simp only [Memory.put]
    split
    · simp [find_cons]
    · split
      · subst_vars
        by_cases h : e.1 = a' <;> simp [find_cons, h]
      · rename_i hne
        simp only [find_cons, ih]
        by_cases h : e.1 = a'
        · have : a ≠ a' := fun h' => hne (h'.trans h.symm)
          simp [h, this]
        · simp [h]

theorem find_remove : Memory.find (Memory.remove m a) a' = if a = a' then none else Memory.find m a' := by
  induction m with
  | nil => simp [Memory.remove]
  | cons e m ih =>
    simp only [Memory.remove] at ih ⊢
    by_cases he : e.1 = a
    · subst he
      rw [List.filter_cons_of_neg (by simp), ih, find_cons]
      split <;> rfl
    · rw [List.filter_cons_of_pos (by simpa using he), find_cons, find_cons, ih]
      by_cases h : e.1 = a'
      · have : a ≠ a' := fun h' => he (h.trans h'.symm)
        simp [h, this]
      · simp [h]

/-! ### Reads after writes -/

theorem read_write (x y : Fin c.gridBytes) :
    Memory.read c (Memory.write c m x b) y = if x = y then b else Memory.read c m y := by
  have hxy : (x = y) = (x.val = y.val) := propext Fin.ext_iff
  simp only [Memory.read, Memory.write, hxy]
  split
  · rename_i hb
    rw [find_remove]
    split
    · rename_i h
      rw [hb, Fin.ext h]
      rfl
    · rfl
  · rw [find_put]
    split <;> rfl

@[simp] theorem read_write_self (x : Fin c.gridBytes) :
    Memory.read c (Memory.write c m x b) x = b := by simp [read_write]

theorem read_write_other {x y : Fin c.gridBytes} (h : x ≠ y) :
    Memory.read c (Memory.write c m x b) y = Memory.read c m y := by simp [read_write, h]

@[simp] theorem read_nil (x : Fin c.gridBytes) : Memory.read c [] x = initByte c x := rfl

/-! ### The canonical form -/

@[simp] theorem wf_nil : Memory.wf c [] := by simp [Memory.wf]

theorem mem_put {e : Host.Cell} (h : e ∈ Memory.put m a b) : e = (a, b) ∨ e ∈ m := by
  induction m with
  | nil => simpa [Memory.put] using h
  | cons k m ih =>
    simp only [Memory.put] at h
    split at h
    · simpa using h
    · split at h
      · rcases List.mem_cons.mp h with h | h
        · exact .inl h
        · exact .inr (List.mem_cons_of_mem _ h)
      · rcases List.mem_cons.mp h with h | h
        · exact .inr (h ▸ List.mem_cons_self)
        · exact (ih h).imp id (List.mem_cons_of_mem _)

theorem put_rising (h : m.Pairwise fun e e' => e.1 < e'.1) :
    (Memory.put m a b).Pairwise fun e e' => e.1 < e'.1 := by
  induction m with
  | nil => simp [Memory.put]
  | cons e m ih =>
    obtain ⟨hlt, hm⟩ := List.pairwise_cons.mp h
    simp only [Memory.put]
    split
    · rename_i hae
      refine List.pairwise_cons.mpr ⟨fun x hx => ?_, h⟩
      rcases List.mem_cons.mp hx with rfl | hx
      · exact hae
      · exact Nat.lt_trans hae (hlt x hx)
    · split
      · rename_i hae
        exact List.pairwise_cons.mpr ⟨fun x hx => hae ▸ hlt x hx, hm⟩
      · refine List.pairwise_cons.mpr ⟨fun x hx => ?_, ih hm⟩
        rcases mem_put hx with rfl | hx
        · show e.1 < a
          omega
        · exact hlt x hx

/-- Every write keeps the canonical form. -/
theorem write_wf (h : Memory.wf c m) (x : Fin c.gridBytes) : Memory.wf c (Memory.write c m x b) := by
  obtain ⟨hr, hl⟩ := h
  simp only [Memory.write]
  split
  · exact ⟨hr.filter _, fun e he => hl e (List.mem_filter.mp he).1⟩
  · rename_i hb
    refine ⟨put_rising hr, fun e he => ?_⟩
    rcases mem_put he with rfl | he
    · exact ⟨x.isLt, hb⟩
    · exact hl e he

/-- In canonical form a byte is listed exactly when it differs from what its address reads as unlisted. -/
theorem find_of_wf (h : Memory.wf c m) (x : Fin c.gridBytes) :
    Memory.find m x.val = if Memory.read c m x = initByte c x then none else some (Memory.read c m x) := by
  have key : ∀ {v : Byte}, Memory.find m x.val = some v → v ≠ initByte c x := by
    have hl := h.2
    clear h
    induction m with
    | nil => simp
    | cons e m ih =>
      intro v hv
      rw [find_cons] at hv
      split at hv
      · rename_i he
        obtain ⟨hlt, hne⟩ := hl e List.mem_cons_self
        have hx : (⟨e.1, hlt⟩ : Fin c.gridBytes) = x := Fin.ext he
        rw [hx] at hne
        cases hv
        exact hne
      · exact ih (fun e' he' => hl e' (List.mem_cons_of_mem _ he')) hv
  rcases hf : Memory.find m x.val with _ | v
  · simp [Memory.read, hf]
  · simp [Memory.read, hf, key hf]

/-- Two rising memories that list the same bytes are equal. -/
theorem eq_of_find {m m' : Memory} (h : m.Pairwise fun e e' => e.1 < e'.1)
    (h' : m'.Pairwise fun e e' => e.1 < e'.1) (hf : ∀ a, Memory.find m a = Memory.find m' a) : m = m' := by
  have none_below : ∀ {k : Memory} {a : Nat}, (∀ e ∈ k, a < e.1) → Memory.find k a = none := by
    intro k a hk
    induction k with
    | nil => rfl
    | cons e k ih =>
      have := hk e List.mem_cons_self
      rw [find_cons, if_neg (by omega), ih fun e' he' => hk e' (List.mem_cons_of_mem _ he')]
  induction m generalizing m' with
  | nil =>
    cases m' with
    | nil => rfl
    | cons e m' =>
      have := hf e.1
      simp [find_cons] at this
  | cons e m ih =>
    obtain ⟨hlt, hm⟩ := List.pairwise_cons.mp h
    cases m' with
    | nil =>
      have := hf e.1
      simp [find_cons] at this
    | cons e' m' =>
      obtain ⟨hlt', hm'⟩ := List.pairwise_cons.mp h'
      have h1 := hf e.1
      have h2 := hf e'.1
      have hk : e.1 = e'.1 := by
        rcases Nat.lt_trichotomy e.1 e'.1 with hc | hc | hc
        · rw [find_cons, if_pos rfl, find_cons, if_neg (by omega),
            none_below fun x hx => Nat.lt_trans hc (hlt' x hx)] at h1
          cases h1
        · exact hc
        · rw [find_cons, if_neg (by omega), find_cons, if_pos rfl,
            none_below fun x hx => Nat.lt_trans hc (hlt x hx)] at h2
          cases h2
      have hv : e.2 = e'.2 := by
        rw [find_cons, find_cons, if_pos rfl, if_pos hk.symm] at h1
        exact Option.some.inj h1
      obtain rfl : e = e' := Prod.ext hk hv
      congr 1
      refine ih hm hm' fun a => ?_
      by_cases ha : e.1 = a
      · subst ha
        rw [none_below hlt, none_below hlt']
      · have := hf a
        rwa [find_cons, find_cons, if_neg ha, if_neg ha] at this

/-- Equal memories are equal data: two memories in canonical form that read alike are the same list. -/
theorem eq_of_read {m m' : Memory} (h : Memory.wf c m) (h' : Memory.wf c m')
    (hread : ∀ x : Fin c.gridBytes, Memory.read c m x = Memory.read c m' x) : m = m' := by
  have none_outside : ∀ {k : Memory} {a : Nat}, Memory.wf c k → ¬ a < c.gridBytes → Memory.find k a = none := by
    intro k a hk ha
    have hl := hk.2
    clear hk
    induction k with
    | nil => rfl
    | cons e k ih =>
      obtain ⟨hlt, -⟩ := hl e List.mem_cons_self
      rw [find_cons, if_neg (by omega), ih fun e' he' => hl e' (List.mem_cons_of_mem _ he')]
  refine eq_of_find h.1 h'.1 fun a => ?_
  by_cases ha : a < c.gridBytes
  · have h1 := find_of_wf h ⟨a, ha⟩
    have h2 := find_of_wf h' ⟨a, ha⟩
    rw [hread] at h1
    exact h1.trans h2.symm
  · rw [none_outside h ha, none_outside h' ha]

end Sys2Proof.Machine
end

