-- ==== Sys2Proof/Laws/Grid.lean ====
section
/-! SUPPORT. What reading and writing a cell do, once. -/

namespace Sys2Proof.Machine

variable {c : Config} {m : Memory} {row row' : Fin c.rows} {col col' : Fin c.columns} {cell : Cell}

/-- The linear index determines the position (R41). -/
theorem cellIndex_inj (h : c.cellIndex row col = c.cellIndex row' col') : row = row' ∧ col = col' := by
  simp only [Config.cellIndex] at h
  have hc := col.isLt
  have hc' := col'.isLt
  have hrow : row.val = row'.val := by
    have h1 : (row.val * c.columns + col.val) / c.columns = row.val := by
      rw [Nat.mul_comm, Nat.mul_add_div c.columns_pos, Nat.div_eq_of_lt hc, Nat.add_zero]
    have h2 : (row'.val * c.columns + col'.val) / c.columns = row'.val := by
      rw [Nat.mul_comm, Nat.mul_add_div c.columns_pos, Nat.div_eq_of_lt hc', Nat.add_zero]
    rw [← h1, h, h2]
  refine ⟨Fin.ext hrow, Fin.ext ?_⟩
  rw [hrow] at h
  omega

theorem glyphAddr_ne_attrAddr : glyphAddr c row col ≠ attrAddr c row' col' := by
  intro h
  have := Fin.ext_iff.mp h
  simp only [glyphAddr, attrAddr] at this
  omega

theorem glyphAddr_inj (h : glyphAddr c row col = glyphAddr c row' col') : row = row' ∧ col = col' := by
  have := Fin.ext_iff.mp h
  simp only [glyphAddr] at this
  exact cellIndex_inj (by omega)

theorem attrAddr_inj (h : attrAddr c row col = attrAddr c row' col') : row = row' ∧ col = col' := by
  have := Fin.ext_iff.mp h
  simp only [attrAddr] at this
  exact cellIndex_inj (by omega)

/-- A byte of the grid after a cell is written. -/
theorem read_writeCell (x : Fin c.gridBytes) :
    Memory.read c (writeCell c m row col cell) x =
      if attrAddr c row col = x then cell.attr
      else if glyphAddr c row col = x then cell.glyph
      else Memory.read c m x := by
  simp only [writeCell, read_write]

/-- The cell written reads back (R93). -/
theorem readCell_writeCell_self : readCell c (writeCell c m row col cell) row col = cell := by
  simp [readCell, read_writeCell, glyphAddr_ne_attrAddr.symm]

/-- Every other cell keeps its value (R91, R93). -/
theorem readCell_writeCell_other (h : ¬ (row = row' ∧ col = col')) :
    readCell c (writeCell c m row col cell) row' col' = readCell c m row' col' := by
  have h1 : attrAddr c row col ≠ attrAddr c row' col' := fun e => h (attrAddr_inj e)
  have h2 : glyphAddr c row col ≠ glyphAddr c row' col' := fun e => h (glyphAddr_inj e)
  simp [readCell, read_writeCell, h1, h2, glyphAddr_ne_attrAddr, glyphAddr_ne_attrAddr.symm]

/-- Writing a cell keeps the canonical form. -/
theorem writeCell_wf (h : Memory.wf c m) : Memory.wf c (writeCell c m row col cell) :=
  write_wf (write_wf h _) _

/-- Right after reset every cell reads as GRID_INIT (R31). -/
theorem readCell_nil :
    readCell c [] row col = c.gridInit[c.cellIndex row col]'(by
      rw [c.gridInit_length]; exact c.cellIndex_lt row col) := by
  have h1 : ∀ n : Nat, (2 * n + 1) / 2 = n := fun n => by omega
  have h2 : ∀ n : Nat, (2 * n + 1) % 2 = 1 := fun n => by omega
  simp [readCell, initByte, glyphAddr, attrAddr, h1, h2]

/-! ### By natural-number positions and addresses -/

theorem gridCell_of_lt {r k : Nat} (hr : r < c.rows) (hk : k < c.columns) :
    gridCell c m r k = some (readCell c m ⟨r, hr⟩ ⟨k, hk⟩) := by
  rw [gridCell, dif_pos ⟨hr, hk⟩]

/-- `gridCell` answers exactly at the positions of the grid. -/
theorem gridCell_isSome {r k : Nat} : (gridCell c m r k).isSome = true ↔ r < c.rows ∧ k < c.columns := by
  rw [gridCell]
  split <;> simp_all

/-- The grid after a cell is written, at every position. -/
theorem gridCell_writeCell {r k : Nat} :
    gridCell c (writeCell c m row col cell) r k =
      if r = row.val ∧ k = col.val then some cell else gridCell c m r k := by
  by_cases h : r = row.val ∧ k = col.val
  · obtain ⟨rfl, rfl⟩ := h
    rw [gridCell_of_lt row.isLt col.isLt, readCell_writeCell_self, if_pos ⟨rfl, rfl⟩]
  · rw [if_neg h, gridCell, gridCell]
    split
    · rw [readCell_writeCell_other]
      rintro ⟨rfl, rfl⟩
      exact h ⟨rfl, rfl⟩
    · rfl

/-- Right after reset a position of the grid holds GRID_INIT (R31). -/
theorem gridCell_nil {r k : Nat} (hr : r < c.rows) (hk : k < c.columns) :
    gridCell c [] r k = c.gridInit[r * c.columns + k]? := by
  rw [gridCell_of_lt hr hk, readCell_nil]
  simp [Config.cellIndex]

/-- A byte of the grid after a cell is written, at every address but the cell's own two. -/
theorem gridByte_writeCell_other {a : Nat} (hg : a ≠ (glyphAddr c row col).val) (ha : a ≠ (attrAddr c row col).val) :
    gridByte c (writeCell c m row col cell) a = gridByte c m a := by
  rw [gridByte, gridByte]
  split
  · rw [read_writeCell, if_neg fun h => ha (congrArg Fin.val h).symm, if_neg fun h => hg (congrArg Fin.val h).symm]
  · rfl

theorem cellAt_eq (s : State) (r k : Nat) : s.cellAt r k = gridCell s.cfg s.grid r k := rfl

theorem byteAt_eq (s : State) (a : Nat) : s.byteAt a = gridByte s.cfg s.grid a := rfl

end Sys2Proof.Machine
end

