-- ==== Sys2Proof/Laws/Lines.lean ====
section
/-! SUPPORT. What the pixel pipeline computes, entry by entry: one lemma for each of its vectors. -/

namespace Sys2Proof.Machine

variable (c : Config)

/-! ### Words and halves -/

@[simp] theorem lowHalf_wordOf (hi lo : BitVec 16) : lowHalf (wordOf hi lo) = lo := by
  ext i h
  simp [lowHalf, wordOf, h]
  omega

@[simp] theorem highHalf_wordOf (hi lo : BitVec 16) : highHalf (wordOf hi lo) = hi := by
  ext i h
  have h1 : 16 + i < 32 := by omega
  simp [highHalf, wordOf, h, h1]

/-! ### Pixels -/

theorem dotColor_eq (bitmap : Byte) (fg bg : Pixel) (d : Fin 8) :
    dotColor bitmap fg bg d = if bitmap.getLsbD (7 - d) then fg else bg := rfl

/-- The pixel of dot `d` of a resolved bitmap row. -/
theorem resolve_getElem (bitmap : Byte) (fg bg : Pixel) (d : Nat) (h : d < 8) :
    (resolve bitmap fg bg)[d] = dotColor bitmap fg bg ⟨d, h⟩ := by
  have h0 : d % 2 = 0 → 2 * (d / 2) = d := by omega
  have h1 : ¬ d % 2 = 0 → 2 * (d / 2) + 1 = d := by omega
  simp only [resolve, dotPair, Vector.getElem_ofFn]
  split
  · simp only [h0 ‹_›]
  · simp only [h1 ‹_›]

/-- Pixel `p` of a line is pixel `p mod 8` of the cell in column `p div 8` of the scanline's character row. -/
theorem linePix_getElem (grid : Memory) (idx : Nat) (h : idx < c.scanlines) (p : Nat) (hp : p < c.pixelsPerLine) :
    (linePix c grid idx h)[p] =
      (cellPixels c
        (readCell c grid ⟨idx / c.rowsPerGlyph, c.charRow_lt h⟩
          ⟨p / 8, Nat.div_lt_of_lt_mul (by rw [Nat.mul_comm]; exact hp)⟩)
        ⟨idx % c.rowsPerGlyph, Nat.mod_lt _ c.rowsPerGlyph_pos⟩)[p % 8]'(Nat.mod_lt _ (by decide)) := by
  simp [linePix, scanMux]

/-! ### Words of a run -/

variable (pix : Vector Pixel c.pixelsPerLine)

theorem pack_zero (h : 0 < c.wordsPerLine) (h' : 0 < c.pixelsPerLine) :
    (pack c pix)[0] = wordOf pix[0] c.rawRunMarker := by
  simp [pack]

theorem pack_one (h : 1 < c.wordsPerLine) (h' : 1 < c.pixelsPerLine) :
    (pack c pix)[1] = wordOf pix[1] (BitVec.ofNat 16 c.runCountField) := by
  simp [pack]

theorem pack_pair {i : Nat} (h2 : 2 ≤ i) (hi : i < c.columns * 4) :
    (pack c pix)[i]'(by rw [c.wordsPerLine_eq]; omega) =
      wordOf (pix[2 * i - 1]'(by rw [c.pixelsPerLine_eq]; omega)) (pix[2 * i - 2]'(by rw [c.pixelsPerLine_eq]; omega)) := by
  have h0 : ¬ i = 0 := by omega
  have h1 : ¬ i = 1 := by omega
  simp [pack, Config.lastPixelWord_eq, h0, h1, hi]

theorem pack_last :
    (pack c pix)[c.columns * 4]'(by rw [c.wordsPerLine_eq]; omega) =
      wordOf 0x0000#16 (pix[8 * c.columns - 2]'(by rw [c.pixelsPerLine_eq]; have := c.columns_pos; omega)) := by
  have := c.columns_pos
  have h0 : ¬ c.columns * 4 = 0 := by omega
  have h1 : ¬ c.columns * 4 = 1 := by omega
  simp [pack, Config.lastPixelWord_eq, h0, h1]

theorem pack_eol :
    (pack c pix)[c.columns * 4 + 1]'(by rw [c.wordsPerLine_eq]; omega) = c.endOfLineMarker := by
  have := c.columns_pos
  have h0 : c.columns ≠ 0 := by omega
  have h1 : ¬ c.columns * 4 + 1 < c.columns * 4 := by omega
  simp [pack, Config.lastPixelWord_eq, h0, h1]

/-! ### The buffer -/

theorem writeRun_length (run : Vector Word c.wordsPerLine) {buf : List Word} (h : c.wordsPerLine ≤ buf.length) :
    (writeRun c run buf).length = buf.length := by
  simp [writeRun]
  omega

/-- The words of the run stand at its indices (R129). -/
theorem writeRun_getElem?_lt (run : Vector Word c.wordsPerLine) (buf : List Word) {i : Nat} (h : i < c.wordsPerLine) :
    (writeRun c run buf)[i]? = some run[i] := by
  simp [writeRun, List.getElem?_append, h]

/-- The words above the run keep what they held (R57, R129). -/
theorem writeRun_getElem?_ge (run : Vector Word c.wordsPerLine) (buf : List Word) {i : Nat} (h : c.wordsPerLine ≤ i) :
    (writeRun c run buf)[i]? = buf[i]? := by
  have hi : c.wordsPerLine + (i - c.wordsPerLine) = i := by omega
  simp [writeRun, List.getElem?_append, Nat.not_lt.mpr h, hi]

end Sys2Proof.Machine
end

