-- ==== Sys2Proof/Laws/PerInstr.lean ====
section
/-! SUPPORT. Facts about every instruction as syntax, one lemma for each constructor of `Instr`. -/

namespace Sys2Proof.Laws

/-- The encoded word carries the opcode of the command's row of spec/opcode_table.json in bits 31:28 and zeros in the
fields that row fixes at zero (R75, R76). -/
def CarriesItsPattern.Statement (i : Instr) : Prop :=
  (encode i).toNat / 2 ^ 28 = i.row.pattern.toNat / 2 ^ 28 ∧
    match i with
    | .cget _ _ => (encode i).toNat % 2 ^ 16 = 0
    | .cset _ _ _ _ => True
    | .render _ => (encode i).toNat / 2 ^ 16 % 2 ^ 12 = 0

theorem CarriesItsPattern.cget (row col : Nat) : CarriesItsPattern.Statement (.cget row col) := by
  constructor
  · rw [encode_cget_toNat, show (Instr.cget row col).row.pattern.toNat = 2 ^ 28 from rfl]
    omega
  · show (encode (.cget row col)).toNat % 2 ^ 16 = 0
    rw [encode_cget_toNat]
    omega

theorem CarriesItsPattern.cset (row col : Nat) (glyph attr : Byte) :
    CarriesItsPattern.Statement (.cset row col glyph attr) := by
  have := glyph.isLt
  have := attr.isLt
  refine ⟨?_, trivial⟩
  rw [encode_cset_toNat, show (Instr.cset row col glyph attr).row.pattern.toNat = 2 * 2 ^ 28 from rfl]
  omega

theorem CarriesItsPattern.render (idx : Nat) : CarriesItsPattern.Statement (.render idx) := by
  constructor
  · rw [encode_render_toNat, show (Instr.render idx).row.pattern.toNat = 3 * 2 ^ 28 from rfl]
    omega
  · show (encode (.render idx)).toNat / 2 ^ 16 % 2 ^ 12 = 0
    rw [encode_render_toNat]
    omega

end Sys2Proof.Laws
end

