-- ==== Sys2Proof/Laws/State.lean ====
section
/-! SUPPORT. One lemma for each field of each update of the state, so that no later proof unfolds a record update. -/

namespace Sys2Proof.Machine

/-! ### resetOf -/

@[simp] theorem resetOf_cfg (c : Config) : (State.resetOf c).cfg = c := rfl
@[simp] theorem resetOf_grid (c : Config) : (State.resetOf c).grid = [] := rfl
@[simp] theorem resetOf_inputs (c : Config) : (State.resetOf c).inputs = [] := rfl
@[simp] theorem resetOf_outputs (c : Config) : (State.resetOf c).outputs = [] := rfl
@[simp] theorem resetOf_buf (c : Config) : (State.resetOf c).buf = [] := rfl
@[simp] theorem resetOf_free (c : Config) : (State.resetOf c).free = 0 := rfl

/-! ### respond -/

variable (s : State) (status : Status) (payload : BitVec 16)

@[simp] theorem respond_cfg : (s.respond status payload).cfg = s.cfg := rfl
@[simp] theorem respond_grid : (s.respond status payload).grid = s.grid := rfl
@[simp] theorem respond_inputs : (s.respond status payload).inputs = s.inputs := rfl
@[simp] theorem respond_buf : (s.respond status payload).buf = [] := rfl
@[simp] theorem respond_free : (s.respond status payload).free = s.free := rfl
@[simp] theorem respond_outputs :
    (s.respond status payload).outputs = .response ⟨status, payload, s.buf⟩ :: s.outputs := rfl

/-! ### accept -/

variable (r : Request) (rest : List Input)

@[simp] theorem accept_cfg : (s.accept r rest).cfg = s.cfg := rfl
@[simp] theorem accept_grid : (s.accept r rest).grid = s.grid := rfl
@[simp] theorem accept_inputs : (s.accept r rest).inputs = rest := rfl
@[simp] theorem accept_outputs : (s.accept r rest).outputs = s.outputs := rfl
@[simp] theorem accept_buf : (s.accept r rest).buf = r.buf := rfl
@[simp] theorem accept_free : (s.accept r rest).free = s.free := rfl

/-! ### resetBetween -/

@[simp] theorem resetBetween_cfg : (s.resetBetween rest).cfg = s.cfg := rfl
@[simp] theorem resetBetween_grid : (s.resetBetween rest).grid = [] := rfl
@[simp] theorem resetBetween_inputs : (s.resetBetween rest).inputs = rest := rfl
@[simp] theorem resetBetween_outputs : (s.resetBetween rest).outputs = s.outputs := rfl
@[simp] theorem resetBetween_buf : (s.resetBetween rest).buf = s.buf := rfl
@[simp] theorem resetBetween_free : (s.resetBetween rest).free = s.free := rfl

/-! ### abandonUnwritten and abandonWriting -/

@[simp] theorem abandonUnwritten_cfg : s.abandonUnwritten.cfg = s.cfg := rfl
@[simp] theorem abandonUnwritten_grid : s.abandonUnwritten.grid = [] := rfl
@[simp] theorem abandonUnwritten_inputs : s.abandonUnwritten.inputs = s.inputs := rfl
@[simp] theorem abandonUnwritten_buf : s.abandonUnwritten.buf = [] := rfl
@[simp] theorem abandonUnwritten_free : s.abandonUnwritten.free = s.free := rfl
@[simp] theorem abandonUnwritten_outputs : s.abandonUnwritten.outputs = .abandoned s.buf :: s.outputs := rfl

@[simp] theorem abandonWriting_cfg : s.abandonWriting.cfg = s.cfg := rfl
@[simp] theorem abandonWriting_grid : s.abandonWriting.grid = [] := rfl
@[simp] theorem abandonWriting_inputs : s.abandonWriting.inputs = s.inputs := rfl
@[simp] theorem abandonWriting_buf : s.abandonWriting.buf = [] := rfl
@[simp] theorem abandonWriting_free : s.abandonWriting.free = s.free + s.buf.length := rfl
@[simp] theorem abandonWriting_outputs :
    s.abandonWriting.outputs = .abandoned (freeWords s.free s.buf.length) :: s.outputs := rfl

@[simp] theorem freeWords_length (start n : Nat) : (freeWords start n).length = n := by simp [freeWords]

end Sys2Proof.Machine
end

