-- ==== Sys2Proof/Laws/Step.lean ====
section
/-! SUPPORT. What each meaning and each step can do, said once: if it answers `next t`, then one of these cases holds. -/

namespace Sys2Proof.Machine

variable {s t : State} {row col idx : Nat} {glyph attr : Byte}

/-! ### The shared operations -/

@[simp] theorem raise_eq (s : State) (status : Status) : s.raise status = .next (s.respond status 0) := rfl

theorem withBuffer_next {k : State} (h : s.withBuffer (.next k) = .next t) :
    s.cfg.wordsPerLine ≤ s.buf.length ∧ t = k := by
  simp only [State.withBuffer] at h
  split at h
  · cases h
    exact ⟨‹_›, rfl⟩
  · cases h

theorem withBuffer_of_le (h : s.cfg.wordsPerLine ≤ s.buf.length) (k : Host.Outcome State Fault Refusal) :
    s.withBuffer k = k := by simp [State.withBuffer, h]

/-! ### The meanings -/

/-- All that CGET can do. -/
theorem execCget_cases (h : execCget row col s = .next t) :
    (∃ h : row < s.cfg.rows ∧ col < s.cfg.columns,
      t = s.respond .ok ((readCell s.cfg s.grid ⟨row, h.1⟩ ⟨col, h.2⟩).attr ++
        (readCell s.cfg s.grid ⟨row, h.1⟩ ⟨col, h.2⟩).glyph)) ∨
    (¬ (row < s.cfg.rows ∧ col < s.cfg.columns) ∧ t = s.respond (.outOfRange (.position row col)) 0) := by
  simp only [execCget] at h
  split at h
  · cases h
    exact .inl ⟨‹_›, rfl⟩
  · cases h
    exact .inr ⟨‹_›, rfl⟩

/-- All that CSET can do. -/
theorem execCset_cases (h : execCset row col glyph attr s = .next t) :
    (∃ h : row < s.cfg.rows ∧ col < s.cfg.columns,
      t = { s with
        grid := writeCell s.cfg s.grid ⟨row, h.1⟩ ⟨col, h.2⟩ ⟨glyph, attr⟩
        buf := []
        outputs := .response ⟨.ok, 0, s.buf⟩ :: s.outputs }) ∨
    (¬ (row < s.cfg.rows ∧ col < s.cfg.columns) ∧ t = s.respond (.outOfRange (.position row col)) 0) := by
  simp only [execCset] at h
  split at h
  · cases h
    exact .inl ⟨‹_›, rfl⟩
  · cases h
    exact .inr ⟨‹_›, rfl⟩

/-- All that RENDER can do. -/
theorem execRender_cases (h : execRender idx s = .next t) :
    (∃ h : idx < s.cfg.scanlines, s.cfg.wordsPerLine ≤ s.buf.length ∧
      t = { s with
        buf := []
        outputs := .response ⟨.ok, usedWords s.cfg,
          writeRun s.cfg (scanlineRun s.cfg s.grid idx h) s.buf⟩ :: s.outputs }) ∨
    (¬ idx < s.cfg.scanlines ∧ t = s.respond (.outOfRange (.scanline idx)) 0) := by
  simp only [execRender] at h
  split at h
  · obtain ⟨hb, rfl⟩ := withBuffer_next h
    exact .inl ⟨‹_›, hb, rfl⟩
  · cases h
    exact .inr ⟨‹_›, rfl⟩

/-! ### Every instruction -/

/-- An instruction that answers leaves the parameters, what is still to come and the free counter alone, hands the
buffer back, and delivers exactly one response, whose payload is 0 unless its status is OK. -/
theorem exec_next {i : Instr} (h : exec i s = .next t) :
    t.cfg = s.cfg ∧ t.inputs = s.inputs ∧ t.free = s.free ∧ t.buf = [] ∧
      ∃ r : Response, t.outputs = .response r :: s.outputs ∧ (r.status ≠ .ok → r.payload = 0) := by
  cases i with
  | cget row col =>
    rcases execCget_cases h with ⟨_, rfl⟩ | ⟨_, rfl⟩ <;> simp
  | cset row col glyph attr =>
    rcases execCset_cases h with ⟨_, rfl⟩ | ⟨_, rfl⟩ <;> simp
  | render idx =>
    rcases execRender_cases h with ⟨_, _, rfl⟩ | ⟨_, rfl⟩ <;> simp

/-- The grid after an instruction: as before, or with the one cell a CSET names written. -/
theorem exec_grid {i : Instr} (h : exec i s = .next t) :
    t.grid = s.grid ∨ ∃ row col glyph attr, i = .cset row col glyph attr ∧
      ∃ h : row < s.cfg.rows ∧ col < s.cfg.columns,
        t.grid = writeCell s.cfg s.grid ⟨row, h.1⟩ ⟨col, h.2⟩ ⟨glyph, attr⟩ := by
  cases i with
  | cget row col =>
    rcases execCget_cases h with ⟨_, rfl⟩ | ⟨_, rfl⟩ <;> exact .inl rfl
  | cset row col glyph attr =>
    rcases execCset_cases h with ⟨hb, rfl⟩ | ⟨_, rfl⟩
    · exact .inr ⟨row, col, glyph, attr, rfl, hb, rfl⟩
    · exact .inl rfl
  | render idx =>
    rcases execRender_cases h with ⟨_, _, rfl⟩ | ⟨_, rfl⟩ <;> exact .inl rfl

/-! ### A step -/

/-- All that an abandoned operation can leave. -/
theorem abandon_cases {op : Except DecodeError Instr} (h : s.abandon op = .next t) :
    t = s.abandonUnwritten ∨ (s.cfg.wordsPerLine ≤ s.buf.length ∧ t = s.abandonWriting) := by
  match op, h with
  | .ok (.cget _ _), h => cases h; exact .inl rfl
  | .ok (.cset _ _ _ _), h => cases h; exact .inl rfl
  | .error _, h => cases h; exact .inl rfl
  | .ok (.render idx), h =>
    simp only [State.abandon] at h
    split at h
    · exact .inr (withBuffer_next h)
    · cases h
      exact .inl rfl

/-- All that a step can do. -/
theorem step_cases (h : step s = .next t) :
    (s.inputs = [] ∧ t = s) ∨
    (∃ r rest i, s.inputs = .request r :: rest ∧ r.operation = .ok i ∧ exec i (s.accept r rest) = .next t) ∨
    (∃ r rest e, s.inputs = .request r :: rest ∧ r.operation = .error e ∧
      t = (s.accept r rest).respond .illegalCommand 0) ∨
    (∃ rest, s.inputs = .reset :: rest ∧ t = s.resetBetween rest) ∨
    (∃ r rest, s.inputs = .resetDuring r :: rest ∧ (s.accept r rest).abandon r.operation = .next t) := by
  simp only [step] at h
  split at h
  · cases h
    exact .inl ⟨‹_›, rfl⟩
  · rename_i r rest hin
    split at h
    · rename_i i hop
      exact .inr (.inl ⟨r, rest, i, hin, hop, h⟩)
    · rename_i e hop
      cases h
      exact .inr (.inr (.inl ⟨r, rest, e, hin, hop, rfl⟩))
  · rename_i rest hin
    cases h
    exact .inr (.inr (.inr (.inl ⟨rest, hin, rfl⟩)))
  · rename_i r rest hin
    exact .inr (.inr (.inr (.inr ⟨r, rest, hin, h⟩)))

end Sys2Proof.Machine
end

