-- ==== Sys2Proof/Laws/Run.lean ====
section
/-! SUPPORT. Runs of many steps: one step at a time, and one run after another. -/

namespace Sys2Proof.Machine

@[simp] theorem run_zero (s : State) : Host.Core.run core 0 s = .next s := rfl

/-- A core's run goes on from where its first step leads. -/
theorem core_run_succ_of_next (M : Host.Core) {s t : M.State} (h : M.step s = .next t) (k : Nat) :
    M.run (k + 1) s = M.run k t := by
  rw [Host.Core.run, h]

/-- A core's run is refused when its first step is. -/
theorem core_run_succ_of_refused (M : Host.Core) {s : M.State} {r : M.Refusal} (h : M.step s = .refused r) (k : Nat) :
    M.run (k + 1) s = .refused r := by
  rw [Host.Core.run, h]

/-- A run whose first step answers goes on from there. -/
theorem run_succ_of_next {s t : State} (h : step s = .next t) (k : Nat) :
    Host.Core.run core (k + 1) s = Host.Core.run core k t :=
  core_run_succ_of_next core h k

/-- Two runs, the second from where the first ends, are one. -/
theorem run_add_of_next {s t : State} {k : Nat} (h : Host.Core.run core k s = .next t) (l : Nat) :
    Host.Core.run core (k + l) s = Host.Core.run core l t := by
  induction k generalizing s with
  | zero =>
    cases h
    rw [Nat.zero_add]
  | succ k ih =>
    rw [show k + 1 + l = k + l + 1 by omega]
    rcases hs : step s with u | r | r
    · rw [run_succ_of_next hs] at h ⊢
      exact ih h
    · exact nomatch r
    · exact nomatch (core_run_succ_of_refused core hs k).symm.trans h

end Sys2Proof.Machine
end

