-- ==== Sys2Proof/Tests/Slice0.lean ====
section
/-! SUPPORT. Tests of the model against the vectors of 95_test_vectors.md (each names its vector), the smoke test of WellFormed, words
written out from 30_encoding.md R75, and for every obligation that has hypotheses a witness that meets them. -/

namespace Sys2Proof.Machine

/-! ### Fixtures of 95_test_vectors.md section 0 -/

/-- PAL_T. -/
def palT : Vector Pixel 16 :=
  #v[0x0000, 0xA800, 0x0540, 0xAD40, 0x0015, 0xA815, 0x0295, 0xAD55,
    0x528A, 0xFA8A, 0x57CA, 0xFFCA, 0x529F, 0xFA9F, 0x57DF, 0xFFDF]

/-- Configuration T1. -/
def configT1 : Config where
  rows := 2
  columns := 2
  rowsPerGlyph := 2
  lastPrintable := 0x22
  font := [0x00, 0x00, 0xC0, 0x18, 0xFF, 0xA5]
  pal := palT
  rawRunMarker := 0x00A1
  endOfLineMarker := 0x000000E0
  gridInit := List.replicate 4 ⟨0x20, 0x17⟩

/-- Configuration T2. -/
def configT2 : Config where
  rows := 1
  columns := 1
  rowsPerGlyph := 1
  lastPrintable := 0x21
  font := [0x00, 0x81]
  pal := palT
  rawRunMarker := 0x00A1
  endOfLineMarker := 0x000000E0
  gridInit := [⟨0x20, 0x17⟩]

/-- T1 after reset, a buffer of eleven words lent: one more than a line takes. -/
def stateT1 : State := { State.resetOf configT1 with buf := List.replicate 11 0xDEADBEEF }

/-- T1 after program P1's two CSETs, the same buffer lent. -/
def stateP1 : State :=
  { stateT1 with grid := [(0, 0x21), (2, 0x22), (3, 0x4E)] }

/-- T1 after reset with the inputs `xs` to come. -/
def withInputs (xs : List Input) : State := { State.resetOf configT1 with inputs := xs }

/-- A request for command word `w`, eleven words of buffer lent. -/
def ask (w : Word) : Request := ⟨.word w, List.replicate 11 0⟩

/-- The outcome is a next state. -/
def answers (o : Host.Outcome State Fault Refusal) : Bool :=
  match o with
  | .next _ => true
  | .fault _ => false
  | .refused _ => false

/-! ### WellFormed refuses an ill-formed term, for each check -/

theorem test_wf_row : (Instr.cget 64 0).illFormed = some .rowTooWide := by decide

theorem test_wf_col : (Instr.cset 63 64 0x41 0x1F).illFormed = some .colTooWide := by decide

theorem test_wf_idx : (Instr.render 65536).illFormed = some .idxTooWide := by decide

/-! ### Words written out from R75 -/

/-- Opcode 0001, row 14, column 39, sixteen zeros (P4.14). -/
theorem test_decode_cget : decode 0b00010011101001110000000000000000#32 = .ok (.cget 14 39) := by decide

/-- Opcode 0010, row 14, column 39, attribute 0x4E, glyph 0x7F (P4.4). -/
theorem test_decode_cset : decode 0b00100011101001110100111001111111#32 = .ok (.cset 14 39 0x7F 0x4E) := by decide

/-- Opcode 0011, twelve zeros, index 239 (P4.10). -/
theorem test_decode_render : decode 0b00110000000000000000000011101111#32 = .ok (.render 239) := by decide

/-- B6.2, B6.4, B6.5. -/
theorem test_decode_illegal :
    decode 0x40000000#32 = .error (.unassignedOpcode 4) ∧ decode 0x10000001#32 = .error .reservedNotZero ∧
      decode 0x30010000#32 = .error .reservedNotZero := by decide

/-- B1.5, B6.7. -/
theorem test_encode : encode (.cset 0 2 0x41 0x1F) = 0x20021F41#32 ∧ encode (.render 65535) = 0x3000FFFF#32 := by decide

theorem test_decodeTableWord :
    decodeTableWord 32 0x23A74E7F = some (.cset 14 39 0x7F 0x4E) ∧ decodeTableWord 32 0x10000001 = none := by decide

/-! ### Lookups, rasterizer and packer -/

/-- B2.1, B2.2, B2.6, B2.7. -/
theorem test_glyphRow :
    glyphRow configT1 0x21 ⟨0, by decide⟩ = 0xC0 ∧ glyphRow configT1 0x22 ⟨1, by decide⟩ = 0xA5 ∧
      glyphRow configT1 0x1F ⟨0, by decide⟩ = 0x00 ∧ glyphRow configT1 0x23 ⟨0, by decide⟩ = 0x00 := by decide

/-- B3.3, B3.4. -/
theorem test_cellColors :
    cellColors configT1 0x17 = (0xAD55, 0xA800) ∧ cellColors configT1 0x71 = (0xA800, 0xAD55) := by decide

/-- B3.10: bitmap 18 has dots 3 and 4 set. -/
theorem test_resolve :
    resolve 0x18 0xAD55 0xA800 = #v[0xA800, 0xA800, 0xA800, 0xAD55, 0xAD55, 0xA800, 0xA800, 0xA800] := by decide

/-- B3.13 and the last valid scanline of T1. -/
theorem test_scanMux : scanMux configT1 3 = (1, 1) ∧ scanMux configT2 7 = (7, 0) := by decide

/-- B4.1 on the pixels 1 to 8: the smallest line, its last pixel absent from the result. -/
theorem test_pack :
    (pack configT2 #v[1, 2, 3, 4, 5, 6, 7, 8]).toList =
      [0x000100A1, 0x00020005, 0x00040003, 0x00060005, 0x00000007, 0x000000E0] := by decide

/-- R44's byte order on one word. -/
theorem test_byteImage : byteImage [0xAD55000D] = [0x0D, 0x00, 0x55, 0xAD] := by decide

/-! ### The three operations -/

/-- P1.6: the payload holds the attribute above the glyph. -/
theorem test_cget : reply (exec (.cget 0 1) stateP1) = some (.ok, 0x4E22) := by decide

/-- P2.3. -/
theorem test_cget_outOfRange : reply (exec (.cget 0 2) stateT1) = some (.outOfRange (.position 0 2), 0) := by decide

/-- P1.2: the cell written differs from GRID_INIT in both bytes, and both are listed. -/
theorem test_cset : execCset 0 1 0x22 0x4E stateT1 =
    .next { stateT1 with
      grid := [(2, 0x22), (3, 0x4E)]
      buf := []
      outputs := [.response ⟨.ok, 0, List.replicate 11 0xDEADBEEF⟩] } := by rfl

/-- P2.1: no cell is written, not even one reached by a wrapped index. -/
theorem test_cset_outOfRange :
    reply (exec (.cset 2 0 0x41 0x1F) stateT1) = some (.outOfRange (.position 2 0), 0) := by decide

/-- P1.4, with the eleventh word of the buffer untouched. -/
theorem test_render : (lastResponse (exec (.render 1) stateP1)).map Response.buf =
    some [0xA80000A1, 0xA800000D, 0xAD55A800, 0xA800AD55, 0xA800A800, 0x001557DF, 0x001557DF, 0x57DF0015, 0x00000015,
      0x000000E0, 0xDEADBEEF] := by decide

/-- B5.2, and the response words of B5.1 and B5.2. -/
theorem test_render_responses :
    (lastResponse (exec (.render 0) stateT1)).map Response.word = some 0x0000000A ∧
      (lastResponse (exec (.render 4) stateT1)).map Response.word = some 0x10000000 := by decide

/-- B6.1: the response word of an illegal command. -/
theorem test_illegal :
    (lastResponse (step (withInputs [.request (ask 0)]))).map Response.word = some 0x20000000 := by decide

/-- R57: the one stop, a valid scanline with no buffer lent, and none for an index that is out of range as well (R171). -/
theorem test_small_buffer :
    exec (.render 3) (State.resetOf configT1) = .refused .bufferTooSmall ∧
      answers (exec (.render 4) (State.resetOf configT1)) = true := ⟨rfl, rfl⟩

/-! ### The machine the host runs -/

/-- After reset the first command runs, whichever it is (R192). -/
theorem test_first_command :
    answers (step (State.reset.withFetchWord 32 0x10410000)) = true ∧
      answers (step (State.reset.withFetchWord 32 0x20001F41)) = true ∧
      answers (step (State.reset.withFetchWord 32 0x30000000)) = true := by decide +kernel

/-! ### Witnesses: what meets the hypotheses of each obligation

Each names the obligation after `witness_`; where an obligation has several clauses there is a part for each, at a
boundary of its range. -/

theorem witness_ResetGridIsGridInit : 1 < configT1.rows ∧ 1 < configT1.columns := by decide

theorem witness_ResetBetweenOperations :
    (withInputs [.reset]).inputs = .reset :: [] ∧ 1 < configT1.rows ∧ 1 < configT1.columns := by decide

/-- A RENDER being written, and a CGET, which writes no buffer. -/
theorem witness_ResetDuringOperation :
    (withInputs [.resetDuring (ask 0x30000003)]).inputs = .resetDuring (ask 0x30000003) :: [] ∧
      (ask 0x30000003).buffered configT1 = true ∧ (ask 0x10000000).buffered configT1 = true ∧
      (∀ idx, (ask 0x10000000).operation = .ok (.render idx) → configT1.scanlines ≤ idx) := by
  refine ⟨by decide, by decide, by decide, fun idx h => ?_⟩
  rw [show (ask 0x10000000).operation = .ok (.cget 0 0) by decide] at h
  cases h

theorem witness_IdleStepChangesNothing : (State.resetOf configT1).inputs = [] := by decide

theorem witness_ParametersNeverChange : ∃ t, step (withInputs [.request (ask 0x20001721)]) = .next t := ⟨_, rfl⟩

theorem witness_StepKeepsTheInvariant :
    (withInputs [.request (ask 0x20001721)]).Inv ∧ ∃ t, step (withInputs [.request (ask 0x20001721)]) = .next t :=
  ⟨by decide, _, rfl⟩

theorem witness_DecodeOfEncode :
    (Instr.cget 63 63).wf = true ∧ (Instr.cset 63 63 0xFF 0xFF).wf = true ∧ (Instr.render 65535).wf = true := by decide

theorem witness_EncodeOfDecode :
    decode 0x1FFF0000#32 = .ok (.cget 63 63) ∧ decode 0x2FFFFFFF#32 = .ok (.cset 63 63 0xFF 0xFF) ∧
      decode 0x3000FFFF#32 = .ok (.render 65535) := by decide

/-- A word of opcode 0, one of opcode 4 and one of opcode 15. -/
theorem witness_OpcodeMapByMatchAndMask :
    (0x0FFFFFFF#32).toNat / 2 ^ 28 = 0 ∧ 4 ≤ (0x40000000#32).toNat / 2 ^ 28 ∧ 4 ≤ (0xFFFFFFFF#32).toNat / 2 ^ 28 := by
  decide

/-- The last cell, one row beyond, one column beyond, and an answer to repeat. -/
theorem witness_CgetReturnsTheCell :
    (1 < stateT1.cfg.rows ∧ 1 < stateT1.cfg.columns) ∧ (stateT1.cfg.rows ≤ 2 ∨ stateT1.cfg.columns ≤ 0) ∧
      (stateT1.cfg.rows ≤ 0 ∨ stateT1.cfg.columns ≤ 2) ∧ ∃ t, exec (.cget 1 1) stateT1 = .next t :=
  ⟨by decide, by decide, by decide, _, rfl⟩

/-- The last cell, another cell, and an address that is neither of its two. -/
theorem witness_CsetWritesOneCell :
    ∃ (hr : 1 < stateT1.cfg.rows) (hc : 1 < stateT1.cfg.columns), ¬ (1 = 1 ∧ 0 = 1) ∧
      5 ≠ (glyphAddr stateT1.cfg ⟨1, hr⟩ ⟨1, hc⟩).val ∧ 5 ≠ (attrAddr stateT1.cfg ⟨1, hr⟩ ⟨1, hc⟩).val := by decide

theorem witness_CsetOutsideTheGridChangesNothing :
    (stateT1.cfg.rows ≤ 2 ∨ stateT1.cfg.columns ≤ 0) ∧ (stateT1.cfg.rows ≤ 0 ∨ stateT1.cfg.columns ≤ 2) := by decide

theorem witness_CsetOfTheSameValueKeepsTheGrid :
    Memory.wf stateP1.cfg stateP1.grid ∧ stateP1.cellAt 0 1 = some ⟨0x22, 0x4E⟩ := by decide

theorem witness_StoreLaws :
    (1 < stateT1.cfg.rows ∧ 1 < stateT1.cfg.columns) ∧ ¬ (1 = 1 ∧ 0 = 1) ∧
      ((stateT1.cfg.rows ≤ 2 ∨ stateT1.cfg.columns ≤ 0) ∧ ∃ t, exec (.cset 2 0 0x41 0x1F) stateT1 = .next t) ∧
      (∃ t, exec (.cget 1 1) stateT1 = .next t) ∧ ∃ t, exec (.render 3) stateT1 = .next t :=
  ⟨by decide, by decide, ⟨by decide, _, rfl⟩, ⟨_, rfl⟩, _, rfl⟩

/-- A CSET, a reset, and a reset during an operation, each of which changes the grid. -/
theorem witness_OnlyCsetAndResetWriteTheGrid :
    (∃ t, step (withInputs [.request (ask 0x20001721)]) = .next t ∧ t.grid ≠ (withInputs []).grid) ∧
      (∃ t, step { stateP1 with inputs := [.reset] } = .next t ∧ t.grid ≠ stateP1.grid) ∧
      ∃ t, step { stateP1 with inputs := [.resetDuring (ask 0)] } = .next t ∧ t.grid ≠ stateP1.grid :=
  ⟨⟨_, rfl, by decide⟩, ⟨_, rfl, by decide⟩, _, rfl, by decide⟩

theorem witness_GlyphRowLooksUpTheFont :
    (0x20 ≤ (0x22 : Byte).toNat ∧ (0x22 : Byte).toNat ≤ configT1.lastPrintable) ∧
      ¬ (0x20 ≤ (0x23 : Byte).toNat ∧ (0x23 : Byte).toNat ≤ configT1.lastPrintable) ∧
      ¬ (0x20 ≤ (0x1F : Byte).toNat ∧ (0x1F : Byte).toNat ≤ configT1.lastPrintable) := by decide

theorem witness_ResolveSelectsByTheBit : (7 < 8) ∧ (3 < 4) := by decide

/-- The last pixel of the last scanline. -/
theorem witness_PixelClosedForm : 3 < stateT1.cfg.scanlines ∧ 15 < stateT1.cfg.pixelsPerLine := by decide

/-- T1 with the control code 0x01 in its last cell (P3.7). -/
def stateControl : State := { stateT1 with grid := [(6, 0x01), (7, 0x2C)] }

theorem witness_NonPrintableCodeIsSolidBackground :
    3 < stateControl.cfg.scanlines ∧ stateControl.cellAt (3 / stateControl.cfg.rowsPerGlyph) 1 = some ⟨0x01, 0x2C⟩ ∧
      ¬ (0x20 ≤ (0x01 : Byte).toNat ∧ (0x01 : Byte).toNat ≤ stateControl.cfg.lastPrintable) ∧ 7 < 8 ∧
      8 * 1 + 7 < stateControl.cfg.pixelsPerLine := by decide

/-- The grid has no cell at a position outside it. -/
theorem cellAt_outside (s : State) {row col : Nat} (h : ¬ (row < s.cfg.rows ∧ col < s.cfg.columns)) :
    s.cellAt row col = none := by
  rw [State.cellAt, gridCell, dif_neg h]

/-- Two states with different grids whose character rows 1 agree, and a CSET to row 0 beside a scanline of row 1. -/
theorem witness_LineIgnoresOtherRows :
    (3 < stateT1.cfg.scanlines ∧ stateT1.grid ≠ stateP1.grid ∧ stateT1.cfg = stateP1.cfg ∧
      ∀ col, stateT1.cellAt (3 / stateT1.cfg.rowsPerGlyph) col = stateP1.cellAt (3 / stateT1.cfg.rowsPerGlyph) col) ∧
      (∃ t, exec (.cset 0 1 0x22 0x4E) stateT1 = .next t) ∧ 0 ≠ 3 / stateT1.cfg.rowsPerGlyph := by
  refine ⟨⟨by decide, by decide, rfl, fun col => ?_⟩, ⟨_, rfl⟩, by decide⟩
  by_cases h : col < 2
  · rcases (by omega : col = 0 ∨ col = 1) with rfl | rfl <;> decide
  · exact (cellAt_outside stateT1 fun hc => h hc.2).trans (cellAt_outside stateP1 fun hc => h hc.2).symm

/-- The last scanline and a buffer of exactly WORDS_PER_LINE words. -/
theorem witness_RenderClosedForm :
    3 < (State.resetOf configT1).cfg.scanlines ∧
      configT1.columns * 4 + 2 ≤ ({ stateT1 with buf := List.replicate 10 0 } : State).buf.length := by decide

theorem witness_RenderOutsideTheScanlines : stateT1.cfg.scanlines ≤ 4 := by decide

/-- Two states that differ in the buffer lent, and two requests in a row. -/
theorem witness_RenderIsAFunctionOfTheGrid :
    (3 < stateT1.cfg.scanlines ∧ stateT1.cfg.columns * 4 + 2 ≤ stateT1.buf.length ∧
      stateT1.cfg.columns * 4 + 2 ≤ ({ stateT1 with buf := List.replicate 10 0 } : State).buf.length ∧
      ∀ row col, stateT1.cellAt row col = ({ stateT1 with buf := List.replicate 10 0 } : State).cellAt row col) ∧
      (withInputs (List.replicate 2 (.request ⟨.call (.render 3), List.replicate 10 0⟩))).inputs =
        .request ⟨.call (.render 3), List.replicate 10 0⟩ :: .request ⟨.call (.render 3), List.replicate 10 0⟩ :: [] :=
  ⟨⟨by decide, by decide, by decide, fun _ _ => rfl⟩, rfl⟩

/-- T1 with the letter in column 1 of row 0. -/
def stateLetter : State := { stateT1 with grid := [(2, 0x22)] }

/-- Scanline 0 of T1 with and without the letter in column 1: column 0 agrees, and so do all columns but the last. -/
theorem witness_RenderWordsDependOnOneCell :
    (∃ t, exec (.render 0) stateLetter = .next t) ∧ (∃ t, exec (.render 0) stateT1 = .next t) ∧
      stateLetter.cellAt (0 / stateLetter.cfg.rowsPerGlyph) 0 = stateT1.cellAt (0 / stateLetter.cfg.rowsPerGlyph) 0 ∧
      stateLetter.cellAt (0 / stateLetter.cfg.rowsPerGlyph) ((4 - 1) / 4) = stateT1.cellAt (0 / stateLetter.cfg.rowsPerGlyph) ((4 - 1) / 4) ∧
      (∀ col, col ≠ stateLetter.cfg.columns - 1 →
        stateLetter.cellAt (0 / stateLetter.cfg.rowsPerGlyph) col = stateT1.cellAt (0 / stateLetter.cfg.rowsPerGlyph) col) ∧
      ¬ (8 * stateLetter.cfg.columns - 8 ≤ 15 ∧ 15 ≤ 8 * stateLetter.cfg.columns - 2) := by
  refine ⟨⟨_, rfl⟩, ⟨_, rfl⟩, by decide, by decide, fun col h => ?_, by decide⟩
  by_cases h0 : col = 0
  · subst h0
    decide
  · have h1 : col ≠ 1 := h
    have h2 : ¬ col < 2 := by omega
    exact (cellAt_outside stateLetter fun hc => h2 hc.2).trans (cellAt_outside stateT1 fun hc => h2 hc.2).symm

/-- A CSET to row 0, then the scanlines 0 (of its row, words 0 and 9 outside the cell's) and 3 (of the other row). -/
theorem witness_CsetChangesOnlyItsWords :
    ∃ t, exec (.cset 0 1 0x22 0x4E) stateT1 = .next t ∧
      (∃ u, exec (.render 0) { stateT1 with buf := List.replicate 10 0 } = .next u) ∧
      (∃ u, exec (.render 0) { t with buf := List.replicate 10 0 } = .next u) ∧
      (∃ u, exec (.render 3) { t with buf := List.replicate 10 0 } = .next u) ∧
      ¬ (4 * 1 + 1 ≤ 4 ∧ 4 ≤ 4 * 1 + 4 ∨ 1 = 0 ∧ 4 = 0) ∧ ¬ (4 * 1 + 1 ≤ 9 ∧ 9 ≤ 4 * 1 + 4 ∨ 1 = 0 ∧ 9 = 0) ∧
      0 ≠ 3 / stateT1.cfg.rowsPerGlyph :=
  ⟨_, rfl, ⟨_, rfl⟩, ⟨_, rfl⟩, ⟨_, rfl⟩, by decide, by decide, by decide⟩

/-- The last cell, a buffer of exactly WORDS_PER_LINE words, the last pixel but one for the buffer and the last for
LINEPIX. -/
theorem witness_RenderSeesTheCellWritten :
    3 < stateT1.cfg.scanlines ∧ 1 = 3 / stateT1.cfg.rowsPerGlyph ∧ 1 < stateT1.cfg.columns ∧
      stateT1.cfg.columns * 4 + 2 ≤ (List.replicate 10 (0 : Word)).length ∧
      (6 < 8 ∧ 8 * 1 + 6 ≠ 8 * stateT1.cfg.columns - 1) ∧ 7 < 8 ∧ 8 * 1 + 7 < stateT1.cfg.pixelsPerLine := by decide

/-- The last pixel but one, too. -/
theorem witness_RenderedPixelsComeFromThePalette :
    3 < stateP1.cfg.scanlines ∧ (∃ t, exec (.render 3) stateP1 = .next t) ∧ 14 < 8 * stateP1.cfg.columns - 1 :=
  ⟨by decide, ⟨_, rfl⟩, by decide⟩

theorem witness_StepRunsTheDecodedCommand :
    (withInputs [.request (ask 0x30000003)]).inputs = .request ⟨.word 0x30000003, List.replicate 11 0⟩ :: [] ∧
      decode 0x30000003#32 = .ok (.render 3) ∧
      (withInputs [.request ⟨.call (.cget 1 1), []⟩]).inputs = .request ⟨.call (.cget 1 1), []⟩ :: [] := by decide

theorem witness_BinaryAndAbstractFormsAgree : (Instr.cset 63 63 0xFF 0xFF).wf = true := by decide

theorem witness_IllegalCommandIsAnswered :
    (withInputs [.request (ask 0x30010000)]).inputs = .request ⟨.word 0x30010000, List.replicate 11 0⟩ :: [] ∧
      0x30010000#32 &&& 0xF000FFFF#32 ≠ 0x10000000#32 ∧ 0x30010000#32 &&& 0xF0000000#32 ≠ 0x20000000#32 ∧
      0x30010000#32 &&& 0xFFFF0000#32 ≠ 0x30000000#32 := by decide

theorem witness_OneResponseForEachCommand :
    (withInputs [.request (ask 0x10020000)]).inputs = .request (ask 0x10020000) :: [] ∧
      ∃ t, step (withInputs [.request (ask 0x10020000)]) = .next t := ⟨by decide, _, rfl⟩

/-- An OutOfRange and an IllegalCommand. -/
theorem witness_FailuresArePrecise :
    (∃ t a, step (withInputs [.request (ask 0x30000004)]) = .next t ∧ t.outputs = .response a :: [] ∧ a.status ≠ .ok) ∧
      ∃ t a, step (withInputs [.request (ask 0x00000000)]) = .next t ∧ t.outputs = .response a :: [] ∧ a.status ≠ .ok :=
  ⟨⟨_, _, rfl, rfl, by decide⟩, _, _, rfl, rfl, by decide⟩

/-- A RENDER in range with its buffer, and one out of range without. -/
theorem witness_OkExactlyInRange :
    ((ask 0x30000003).operation = .ok (.render 3) ∧ (ask 0x30000003).buffered configT1 = true ∧
      inRange configT1 (.render 3) = true) ∧
      Request.buffered configT1 ⟨.word 0x30000004, []⟩ = true ∧ inRange configT1 (.render 4) = false := by decide

theorem witness_BufferedRunsComplete :
    (withInputs [.request (ask 0x30000003), .reset, .resetDuring (ask 0x30000000), .request (ask 0)]).Buffered := by
  decide

theorem witness_FillSetsEveryCell :
    (withInputs (fillInputs configT1 0x20 0x0F)).inputs = fillInputs configT1 0x20 0x0F := by decide

theorem witness_FrameRendersEveryScanline :
    (withInputs (frameInputs configT1 (List.replicate 10 0))).inputs = frameInputs configT1 (List.replicate 10 0) ∧
      configT1.columns * 4 + 2 ≤ (List.replicate 10 (0 : Word)).length := by decide

/-- Two requests of one frame, with the frame seen before and with another. -/
theorem witness_HookOnceForEachFrame :
    (∀ q' ∈ [(⟨7, 1, [], []⟩ : ScanlineRequest)], q'.frame = (⟨7, 0, [], [.set 0 0 0x41 0x1F]⟩ : ScanlineRequest).frame) ∧
      some 7 = some (⟨7, 0, [], [.set 0 0 0x41 0x1F]⟩ : ScanlineRequest).frame ∧
      (none : Option Nat) ≠ some (⟨7, 0, [], [.set 0 0 0x41 0x1F]⟩ : ScanlineRequest).frame := by decide

end Sys2Proof.Machine
end

section
/-! Ranges of the derived constants of R7 under R9's `1 ≤ COLUMNS ≤ 8192`, and the 16-bit fields that carry them. -/

namespace Sys2Proof
variable (c : Config)

/-- R9's lower bound keeps the natural subtraction in RUN_COUNT_FIELD exact. -/
theorem Config.runCountField_add_three : c.runCountField + 3 = c.columns * 8 := by
  have hpos := c.columns_pos
  rw [Config.runCountField]
  omega

theorem Config.five_le_runCountField : 5 ≤ c.runCountField := by
  have hpos := c.columns_pos
  have hrun := c.runCountField_add_three
  omega

theorem Config.runCountField_le : c.runCountField ≤ 65533 := by
  have hle := c.columns_le
  have hrun := c.runCountField_add_three
  omega

theorem Config.eolWord_eq : c.eolWord = c.columns * 4 + 1 := by rw [Config.eolWord]

theorem Config.eolWord_le : c.eolWord ≤ 32769 := by
  have hle := c.columns_le
  rw [c.eolWord_eq]
  omega

theorem Config.wordsPerLine_le : c.wordsPerLine ≤ 32770 := by
  have hle := c.columns_le
  rw [c.wordsPerLine_eq]
  omega

theorem Config.four_le_lastPixelWord : 4 ≤ c.lastPixelWord := by
  have hpos := c.columns_pos
  rw [c.lastPixelWord_eq]
  omega

/-- The low half of output word 1 holds RUN_COUNT_FIELD unreduced. -/
theorem Config.runCountField_toNat : (BitVec.ofNat 16 c.runCountField).toNat = c.runCountField :=
  (BitVec.toNat_ofNat _ _).trans (Nat.mod_eq_of_lt (Nat.lt_of_le_of_lt c.runCountField_le (by decide)))

/-- The `used` field of a response (R77) holds WORDS_PER_LINE unreduced. -/
theorem Machine.usedWords_toNat : (Machine.usedWords c).toNat = c.wordsPerLine :=
  (BitVec.toNat_ofNat _ _).trans (Nat.mod_eq_of_lt (Nat.lt_of_le_of_lt c.wordsPerLine_le (by decide)))

end Sys2Proof

namespace Sys2Proof.Machine

/-- Settles O17: each conjunct is one of the range lemmas above. -/
theorem derivedValuesFitTheirFields : Obligations.DerivedValuesFitTheirFields := by
  intro c
  have hrun : (BitVec.ofNat 16 c.runCountField).toNat + 3 = c.columns * 8 := by
    rw [c.runCountField_toNat, c.runCountField_add_three]
  have hused : (usedWords c).toNat = c.columns * 4 + 2 := by
    rw [usedWords_toNat, c.wordsPerLine_eq]
  exact ⟨c.five_le_runCountField, c.runCountField_le, hrun, hused, c.four_le_lastPixelWord, c.eolWord_le⟩

end Sys2Proof.Machine
end

section
/-! What stays and what is kept over one step: the parameters, the grid but for CSET and reset, and the invariant of the
states between operations. -/

namespace Sys2Proof.Machine

variable {s t : State}

/-! ### Delivered outputs -/

/-- R77's rule on a payload, as a proposition. -/
theorem Response.wf_iff (r : Response) : r.wf = true ↔ (r.status ≠ .ok → r.payload = 0) := by
  by_cases h : r.status = .ok <;> simp [Response.wf, h]

/-- A response is a well-formed output when its payload obeys R77. -/
theorem Output.wf_response {r : Response} (h : r.status ≠ .ok → r.payload = 0) : (Output.response r).wf = true :=
  r.wf_iff.mpr h

@[simp] theorem Output.wf_abandoned (b : List Word) : (Output.abandoned b).wf = true := rfl

/-! ### An abandoned operation -/

/-- A reset during an operation puts the grid back, hands the buffer back in one output that is no response, and leaves
the parameters and what is still to come (R191). -/
theorem abandon_next {op : Except DecodeError Instr} (h : s.abandon op = .next t) :
    t.cfg = s.cfg ∧ t.inputs = s.inputs ∧ t.grid = [] ∧ t.buf = [] ∧ ∃ b, t.outputs = .abandoned b :: s.outputs := by
  rcases abandon_cases h with rfl | ⟨_, rfl⟩
  · exact ⟨rfl, rfl, rfl, rfl, _, rfl⟩
  · exact ⟨rfl, rfl, rfl, rfl, _, rfl⟩

/-! ### Steps and the parameters -/

/-- With nothing to come the block is idle (R27, R180). -/
theorem step_of_no_input (h : s.inputs = []) : step s = .next s := by
  rw [step, h]

/-- No step changes a parameter (R29, R32). -/
theorem step_cfg (h : step s = .next t) : t.cfg = s.cfg := by
  rcases step_cases h with ⟨_, rfl⟩ | ⟨r, rest, i, _, _, hexec⟩ | ⟨r, rest, e, _, _, rfl⟩ | ⟨rest, _, rfl⟩ |
    ⟨r, rest, _, habandon⟩
  case inl => rfl
  case inr.inl =>
    obtain ⟨hcfg, _⟩ := exec_next hexec
    exact hcfg
  case inr.inr.inl => rfl
  case inr.inr.inr.inl => rfl
  case inr.inr.inr.inr =>
    obtain ⟨hcfg, _⟩ := abandon_next habandon
    exact hcfg

/-! ### The grid's canonical form -/

/-- No instruction breaks the canonical form of the grid: only a CSET in range writes it, and by whole cells. -/
theorem exec_grid_wf {i : Instr} (h : exec i s = .next t) (hwf : Memory.wf s.cfg s.grid) : Memory.wf s.cfg t.grid := by
  rcases exec_grid h with hgrid | ⟨row, col, glyph, attr, _, _, hgrid⟩
  · exact hgrid ▸ hwf
  · exact hgrid ▸ writeCell_wf hwf

/-! ### The invariant -/

/-- The invariant right after reset, in every configuration. -/
theorem inv_resetOf (c : Config) : (State.resetOf c).Inv :=
  ⟨wf_nil, rfl, by simp⟩

/-- An operation that delivers one well-formed output, hands its buffer back and leaves the grid in canonical form ends
in a state of the invariant. No buffer need have been free before: an accepted request holds one. -/
theorem inv_of_output {o : Output} (hcfg : t.cfg = s.cfg) (hgrid : Memory.wf s.cfg t.grid) (hbuf : t.buf = [])
    (hout : t.outputs = o :: s.outputs) (ho : o.wf = true) (hs : ∀ o ∈ s.outputs, o.wf = true) : t.Inv := by
  refine ⟨hcfg ▸ hgrid, hbuf, ?_⟩
  rw [hout]
  exact List.forall_mem_cons.mpr ⟨ho, hs⟩

theorem exec_inv {i : Instr} (h : exec i s = .next t) (hwf : Memory.wf s.cfg s.grid)
    (hs : ∀ o ∈ s.outputs, o.wf = true) : t.Inv := by
  obtain ⟨hcfg, _, _, hbuf, r, hout, hpayload⟩ := exec_next h
  exact inv_of_output hcfg (exec_grid_wf h hwf) hbuf hout (Output.wf_response hpayload) hs

/-- The response of a failure keeps the invariant: its payload is 0 (R165, R172). -/
theorem respond_inv (status : Status) (hwf : Memory.wf s.cfg s.grid) (hs : ∀ o ∈ s.outputs, o.wf = true) :
    (s.respond status 0).Inv :=
  inv_of_output (respond_cfg s status 0) hwf rfl (respond_outputs s status 0) (Output.wf_response fun _ => rfl) hs

theorem abandon_inv {op : Except DecodeError Instr} (h : s.abandon op = .next t)
    (hs : ∀ o ∈ s.outputs, o.wf = true) : t.Inv := by
  obtain ⟨hcfg, _, hgrid, hbuf, b, hout⟩ := abandon_next h
  exact inv_of_output hcfg (hgrid ▸ wf_nil) hbuf hout (Output.wf_abandoned b) hs

theorem step_inv (h : step s = .next t) (hinv : s.Inv) : t.Inv := by
  have ⟨hwf, hbuf, hs⟩ := hinv
  rcases step_cases h with ⟨_, rfl⟩ | ⟨r, rest, i, _, _, hexec⟩ | ⟨r, rest, e, _, _, rfl⟩ | ⟨rest, _, rfl⟩ |
    ⟨r, rest, _, habandon⟩
  case inl => exact hinv
  case inr.inl => exact exec_inv hexec hwf hs
  case inr.inr.inl => exact respond_inv .illegalCommand hwf hs
  case inr.inr.inr.inl => exact ⟨wf_nil, hbuf, hs⟩
  case inr.inr.inr.inr => exact abandon_inv habandon hs

/-! ### The obligations about state -/

/-- Settles O7: each case of a step either changes nothing, empties the grid, or ends in one well-formed output. -/
theorem stepKeepsTheInvariant : Obligations.StepKeepsTheInvariant := by
  intro s t hinv h
  exact step_inv h hinv

/-- Settles O23: of the inputs that are no reset, only one whose operation writes a cell changes the grid. -/
theorem onlyCsetAndResetWriteTheGrid : Obligations.OnlyCsetAndResetWriteTheGrid := by
  intro s t h hne
  rcases step_cases h with ⟨_, rfl⟩ | ⟨r, rest, i, hin, hop, hexec⟩ | ⟨r, rest, e, _, _, rfl⟩ | ⟨rest, hin, _⟩ |
    ⟨r, rest, hin, _⟩
  case inl => exact absurd rfl hne
  case inr.inl =>
    rcases exec_grid hexec with hgrid | ⟨row, col, glyph, attr, rfl, ⟨hrow, hcol⟩, _⟩
    · exact absurd hgrid hne
    · exact .inl ⟨r, rest, row, col, glyph, attr, hin, hop, hrow, hcol⟩
  case inr.inr.inl => exact absurd rfl hne
  case inr.inr.inr.inl => exact .inr (.inl ⟨rest, hin⟩)
  case inr.inr.inr.inr => exact .inr (.inr ⟨r, rest, hin⟩)

/-- Settles O1: the empty memory reads as GRID_INIT at every position of the grid. -/
theorem resetGridIsGridInit : Obligations.ResetGridIsGridInit := by
  intro c row col hrow hcol
  rw [cellAt_eq, resetOf_cfg, resetOf_grid]
  exact ⟨gridCell_nil hrow hcol, gridCell_isSome.mpr ⟨hrow, hcol⟩⟩

/-- Settles O4. -/
theorem idleStepChangesNothing : Obligations.IdleStepChangesNothing := by
  intro s h
  exact step_of_no_input h

/-- Settles O5. -/
theorem parametersNeverChange : Obligations.ParametersNeverChange := by
  intro s t h
  exact step_cfg h

/-- Settles O6. -/
theorem resetMeetsTheInvariant : Obligations.ResetMeetsTheInvariant := by
  intro c
  exact inv_resetOf c

end Sys2Proof.Machine
end

section
/-! The byte image of a word list (20_memory.md R44): four bytes a word, and the word is their concatenation. -/

namespace Sys2Proof.Machine

variable {w w' : Word}

@[simp] theorem wordBytes_length (w : Word) : (wordBytes w).length = 4 := rfl

@[simp] theorem byteImage_nil : byteImage [] = [] := rfl

@[simp] theorem byteImage_cons (w : Word) (ws : List Word) : byteImage (w :: ws) = wordBytes w ++ byteImage ws := rfl

/-- The four byte fields of a word leave no bit out. -/
theorem word_eq_append_bytes (w : Word) :
    w = w.extractLsb' 24 8 ++ w.extractLsb' 16 8 ++ w.extractLsb' 8 8 ++ w.extractLsb' 0 8 := by
  apply BitVec.eq_of_toNat_eq
  have hw := w.isLt
  simp only [toNat_append_eq_add, toNat_field]
  omega

theorem wordBytes_inj : wordBytes w = wordBytes w' ↔ w = w' := by
  refine ⟨fun h => ?_, congrArg wordBytes⟩
  simp only [wordBytes, List.cons.injEq, and_true] at h
  obtain ⟨h0, h1, h2, h3⟩ := h
  rw [word_eq_append_bytes w, word_eq_append_bytes w', h0, h1, h2, h3]

/-- The words being of one length, an image can be cut after its first word. -/
theorem wordBytes_append_inj {bs bs' : List Byte} :
    wordBytes w ++ bs = wordBytes w' ++ bs' ↔ w = w' ∧ bs = bs' := by
  constructor
  · intro h
    obtain ⟨hw, hbs⟩ := List.append_inj h rfl
    exact ⟨wordBytes_inj.mp hw, hbs⟩
  · rintro ⟨rfl, rfl⟩
    rfl

/-- Settles O16, by induction on the first list: images are compared a word at a time. -/
theorem byteImagesEqualWhenWordsAre : Obligations.ByteImagesEqualWhenWordsAre := by
  intro ws
  induction ws with
  | nil =>
    intro ws'
    cases ws' with
    | nil => simp
    | cons w' ws' => simp [wordBytes]
  | cons w ws ih =>
    intro ws'
    cases ws' with
    | nil => simp [wordBytes]
    | cons w' ws' => rw [byteImage_cons, byteImage_cons, wordBytes_append_inj, ih, List.cons.injEq]

end Sys2Proof.Machine
end

section
/-! Which operations answer and with what: an equation for each outcome of a meaning, where Laws/Step.lean inverts
them. -/

namespace Sys2Proof.Machine

variable {s : State} {row col idx : Nat} {glyph attr : Byte} {r : Refusal}

/-! ### CGET and CSET answer always -/

theorem execCget_answers (row col : Nat) (s : State) : ∃ t, execCget row col s = .next t := by
  rw [execCget]
  split <;> exact ⟨_, rfl⟩

theorem execCset_answers (row col : Nat) (glyph attr : Byte) (s : State) :
    ∃ t, execCset row col glyph attr s = .next t := by
  rw [execCset]
  split <;> exact ⟨_, rfl⟩

/-- CSET of a position of the grid (R91). -/
theorem exec_cset_of_lt (glyph attr : Byte) (hr : row < s.cfg.rows) (hc : col < s.cfg.columns) :
    exec (.cset row col glyph attr) s = .next { s with
      grid := writeCell s.cfg s.grid ⟨row, hr⟩ ⟨col, hc⟩ ⟨glyph, attr⟩
      buf := []
      outputs := .response ⟨.ok, 0, s.buf⟩ :: s.outputs } :=
  dif_pos ⟨hr, hc⟩

/-! ### RENDER answers but into too small a buffer -/

theorem withBuffer_refused {t : State} :
    s.withBuffer (.next t) = .refused r ↔ r = .bufferTooSmall ∧ s.buf.length < s.cfg.wordsPerLine := by
  rw [State.withBuffer]
  split
  · simp [Nat.not_lt.mpr ‹_›]
  · simp [Nat.lt_of_not_le ‹_›, eq_comm]

/-- RENDER of a valid scanline, up to the buffer contract (R135). -/
theorem execRender_of_lt (h : idx < s.cfg.scanlines) :
    execRender idx s = s.withBuffer (.next { s with
      buf := []
      outputs := .response ⟨.ok, usedWords s.cfg, writeRun s.cfg (scanlineRun s.cfg s.grid idx h) s.buf⟩ ::
        s.outputs }) :=
  dif_pos h

/-- RENDER beyond the scanlines, whatever buffer is lent (R136). -/
theorem execRender_of_ge (h : s.cfg.scanlines ≤ idx) :
    execRender idx s = .next (s.respond (.outOfRange (.scanline idx)) 0) :=
  dif_neg (Nat.not_lt.mpr h)

/-- RENDER of a valid scanline into a buffer large enough (R137). -/
theorem exec_render_of_le (h : idx < s.cfg.scanlines) (hb : s.cfg.wordsPerLine ≤ s.buf.length) :
    exec (.render idx) s = .next { s with
      buf := []
      outputs := .response ⟨.ok, usedWords s.cfg, writeRun s.cfg (scanlineRun s.cfg s.grid idx h) s.buf⟩ ::
        s.outputs } :=
  (execRender_of_lt h).trans (withBuffer_of_le hb _)

theorem execRender_refused :
    execRender idx s = .refused r ↔
      r = .bufferTooSmall ∧ idx < s.cfg.scanlines ∧ s.buf.length < s.cfg.wordsPerLine := by
  rcases Nat.lt_or_ge idx s.cfg.scanlines with h | h
  · simp [execRender_of_lt h, withBuffer_refused, h]
  · simp [execRender_of_ge h, Nat.not_lt.mpr h]

/-- Settles O35: of the three meanings RENDER's alone asks the buffer contract, and after its bounds check. -/
theorem refusedExactlyForSmallBuffers : Obligations.RefusedExactlyForSmallBuffers := by
  intro i s r
  cases i with
  | cget row col =>
    obtain ⟨t, ht⟩ := execCget_answers row col s
    simp [exec, ht]
  | cset row col glyph attr =>
    obtain ⟨t, ht⟩ := execCset_answers row col glyph attr s
    simp [exec, ht]
  | render idx =>
    simp [exec, execRender_refused, Config.wordsPerLine_eq]

/-! ### A step that takes a request -/

/-- A request whose operation is known runs it with its buffer lent (R50, R75). -/
theorem step_of_request {q : Request} {rest : List Input} {i : Instr} (h : s.inputs = .request q :: rest)
    (hop : q.operation = .ok i) : step s = exec i (s.accept q rest) := by
  simp only [step, h, hop]

/-- Settles O41: both command forms, by the operation each asks for. -/
theorem stepRunsTheDecodedCommand : Obligations.StepRunsTheDecodedCommand := by
  constructor
  · intro s w buf rest i h hw
    exact step_of_request h hw
  · intro s buf rest i h
    exact step_of_request h rfl

end Sys2Proof.Machine
end

section
/-! From a cell to the pixels a reader finds: the pixels of one cell, of a line column by column, read back from a packed
run (30_encoding.md R73), and from the buffer RENDER hands back. -/

namespace Sys2Proof.Machine

/-! ### The pixels of a cell -/

section
variable (c : Config)

theorem pal_fgIndex (attr : Byte) : c.pal[(attr &&& 0xF#8).toNat]? = some (color c (fgIndex attr)) := by
  have h : (attr &&& 0xF#8).toNat = (fgIndex attr).toNat := by
    have hmask : attr.toNat &&& 15 = attr.toNat % 16 := Nat.and_two_pow_sub_one_eq_mod attr.toNat 4
    simp [fgIndex, hmask]
  simp [h, color]

theorem pal_bgIndex (attr : Byte) : c.pal[(attr >>> 4).toNat]? = some (color c (bgIndex attr)) := by
  have h : (attr >>> 4).toNat = (bgIndex attr).toNat := by
    have hlt := attr.isLt
    simp only [bgIndex, BitVec.toNat_ushiftRight, BitVec.extractLsb'_toNat, Nat.shiftRight_eq_div_pow]
    omega
  simp [h, color]

/-- Pixel `d` of a cell: foreground where bit `7 - d` of its glyph row is set, else background (R111, R112). -/
theorem some_cellPixels_getElem (cell : Cell) (row : Fin c.rowsPerGlyph) {d : Nat} (hd : d < 8) :
    some (cellPixels c cell row)[d] =
      if (glyphRow c cell.glyph row).getLsbD (7 - d) then c.pal[(cell.attr &&& 0xF#8).toNat]?
      else c.pal[(cell.attr >>> 4).toNat]? := by
  rw [pal_fgIndex, pal_bgIndex, cellPixels, resolve_getElem, dotColor_eq]
  split <;> rfl

/-- The eight pixels of column `col` of a line are those of that column's cell (R114). -/
theorem linePix_column (grid : Memory) {idx col d : Nat} (h : idx < c.scanlines) (hc : col < c.columns) (hd : d < 8)
    (hp : 8 * col + d < c.pixelsPerLine) :
    (linePix c grid idx h)[8 * col + d] =
      (cellPixels c (readCell c grid ⟨idx / c.rowsPerGlyph, c.charRow_lt h⟩ ⟨col, hc⟩)
        ⟨idx % c.rowsPerGlyph, Nat.mod_lt _ c.rowsPerGlyph_pos⟩)[d] := by
  have hdiv : (8 * col + d) / 8 = col := by omega
  have hmod : (8 * col + d) % 8 = d := by omega
  simp only [linePix_getElem, hdiv, hmod]

end

/-! ### A packed run read back -/

section
variable {c : Config} (pix : Vector Pixel c.pixelsPerLine)

/-- The low halves of the words from word 2 on are the even pixels (R123, R125). -/
theorem lowHalf_pack_succ {k : Nat} (hk : 1 ≤ k) (hp : 2 * k < c.pixelsPerLine) (hw : k + 1 < c.wordsPerLine) :
    lowHalf (pack c pix)[k + 1] = pix[2 * k] := by
  have hppl := c.pixelsPerLine_eq
  rcases Nat.lt_or_ge (k + 1) (c.columns * 4) with h | h
  · have hidx : 2 * (k + 1) - 2 = 2 * k := by omega
    simp only [pack_pair c pix (show 2 ≤ k + 1 by omega) h, lowHalf_wordOf, hidx]
  · have hlast : k + 1 = c.columns * 4 := by omega
    have hidx : 8 * c.columns - 2 = 2 * k := by omega
    simp only [hlast, pack_last, lowHalf_wordOf, hidx]

/-- The high halves of the words from word 2 on are the odd pixels, but for the last word's, which is forced (R123,
R125). -/
theorem highHalf_pack_succ {k : Nat} (hk : 1 ≤ k) (hp : 2 * k + 1 < c.pixelsPerLine) (hw : k + 1 < c.wordsPerLine) :
    highHalf (pack c pix)[k + 1] = if 2 * k + 1 = 8 * c.columns - 1 then 0x0000#16 else pix[2 * k + 1] := by
  have hppl := c.pixelsPerLine_eq
  rcases Nat.lt_or_ge (k + 1) (c.columns * 4) with h | h
  · have hidx : 2 * (k + 1) - 1 = 2 * k + 1 := by omega
    rw [if_neg (by omega)]
    simp only [pack_pair c pix (show 2 ≤ k + 1 by omega) h, highHalf_wordOf, hidx]
  · have hlast : k + 1 = c.columns * 4 := by omega
    rw [if_pos (by omega)]
    simp only [hlast, pack_last, highHalf_wordOf]

/-- A packed line read back by R73 gives every pixel but the last, which reads as 0 (R130). -/
theorem decodedPixel_pack (p : Fin c.pixelsPerLine) :
    decodedPixel c (pack c pix) p = if p.val = 8 * c.columns - 1 then 0x0000#16 else pix[p] := by
  obtain ⟨p, hp⟩ := p
  have hpos := c.columns_pos
  have hppl := c.pixelsPerLine_eq
  simp only [decodedPixel, Fin.getElem_fin]
  split
  · subst p
    rw [if_neg (by omega), pack_zero c pix _ (by omega), highHalf_wordOf]
  split
  · subst p
    rw [if_neg (by omega), pack_one c pix _ (by omega), highHalf_wordOf]
  split
  · obtain ⟨k, rfl⟩ : ∃ k, p = 2 * k := ⟨p / 2, by omega⟩
    have hidx : 2 * k / 2 = k := by omega
    rw [if_neg (by omega)]
    simp only [hidx]
    exact lowHalf_pack_succ pix (by omega) hp _
  · obtain ⟨k, rfl⟩ : ∃ k, p = 2 * k + 1 := ⟨p / 2, by omega⟩
    have hidx : (2 * k + 1 - 1) / 2 = k := by omega
    simp only [hidx]
    exact highHalf_pack_succ pix (by omega) hp _

end

/-! ### The buffer RENDER hands back -/

section
variable {s : State} {idx : Nat} (h : idx < s.cfg.scanlines) (hb : s.cfg.wordsPerLine ≤ s.buf.length)
include hb

theorem bufferWord_render {i : Nat} (hi : i < s.cfg.wordsPerLine) :
    bufferWord (exec (.render idx) s) i = some (scanlineRun s.cfg s.grid idx h)[i] := by
  rw [exec_render_of_le h hb]
  exact writeRun_getElem?_lt s.cfg _ _ hi

/-- Reading the buffer back is reading the run back (R73, R129). -/
theorem bufferPixel_render (p : Fin s.cfg.pixelsPerLine) :
    bufferPixel (exec (.render idx) s) p = some (decodedPixel s.cfg (scanlineRun s.cfg s.grid idx h) p) := by
  have hp := p.isLt
  have hppl := s.cfg.pixelsPerLine_eq
  have hwpl := s.cfg.wordsPerLine_eq
  simp only [bufferPixel, decodedPixel]
  split_ifs <;> rw [bufferWord_render h hb (by omega), Option.map_some]

/-- A rendered line read back from its buffer is LINEPIX at every position but the last, which is forced. -/
theorem bufferPixel_render_eq_linePix {p : Nat} (hp : p < s.cfg.pixelsPerLine) (hne : p ≠ 8 * s.cfg.columns - 1) :
    bufferPixel (exec (.render idx) s) p = some (linePix s.cfg s.grid idx h)[p] := by
  rw [bufferPixel_render h hb ⟨p, hp⟩, scanlineRun, decodedPixel_pack, if_neg hne]
  rfl

end

/-! ### RENDER after CSET -/

/-- LINEPIX of a grid just written, at the column written on a scanline of its row: the pixels of the pair. -/
theorem linePix_writeCell {c : Config} (grid : Memory) {idx col d : Nat} (cell : Cell) (h : idx < c.scanlines)
    (hc : col < c.columns) (hd : d < 8) (hp : 8 * col + d < c.pixelsPerLine) :
    some (linePix c (writeCell c grid ⟨idx / c.rowsPerGlyph, c.charRow_lt h⟩ ⟨col, hc⟩ cell) idx h)[8 * col + d] =
      if (glyphRow c cell.glyph ⟨idx % c.rowsPerGlyph, Nat.mod_lt _ c.rowsPerGlyph_pos⟩).getLsbD (7 - d)
      then c.pal[(cell.attr &&& 0xF#8).toNat]?
      else c.pal[(cell.attr >>> 4).toNat]? := by
  rw [linePix_column c _ h hc hd hp, readCell_writeCell_self, some_cellPixels_getElem]

/-- Settles O39: LINEPIX on the grid written takes the column's pixels from the pair written, and the buffer reads back
as LINEPIX but for the forced position. -/
theorem renderSeesTheCellWritten : Obligations.RenderSeesTheCellWritten := by
  intro s row col glyph attr idx b h hrow hc hb
  subst row
  have hcset := exec_cset_of_lt glyph attr (s.cfg.charRow_lt h) hc
  have hlen : s.cfg.wordsPerLine ≤ b.length := s.cfg.wordsPerLine_eq ▸ hb
  refine ⟨_, _, hcset, exec_render_of_le ?valid ?lent, by rw [hcset]; rfl, fun d hd => ?pixels⟩
  case valid => exact h
  case lent => exact hlen
  case pixels =>
    have hp : 8 * col + d < s.cfg.pixelsPerLine := by
      rw [s.cfg.pixelsPerLine_eq]
      omega
    have hcolour := linePix_writeCell s.grid ⟨glyph, attr⟩ h hc hd hp
    refine ⟨fun hne => ?_, fun _ => hcolour⟩
    refine Eq.trans (bufferPixel_render_eq_linePix ?_ ?_ ?_ hne) hcolour
    · exact h
    · exact hlen
    · exact hp

end Sys2Proof.Machine
end

section
/-! The decoder by the fields of a word (30_encoding.md R75, R76, R78): what each pattern asks of them, as opcode and
must-be-0 fields and as match and mask, and that encoding and decoding are inverse. -/

namespace Sys2Proof

variable {w : Word} {row col idx : Nat} {glyph attr : Byte}

/-! ### Which words decode to what -/

theorem decode_eq_cget_iff :
    decode w = .ok (.cget row col) ↔
      (opcodeField w = 0b0001#4 ∧ w.extractLsb' 0 16 = 0#16) ∧ rowField w = row ∧ colField w = col := by
  rw [decode]
  split_ifs <;> simp_all

theorem decode_eq_cset_iff :
    decode w = .ok (.cset row col glyph attr) ↔
      opcodeField w = 0b0010#4 ∧ rowField w = row ∧ colField w = col ∧ glyphField w = glyph ∧ attrField w = attr := by
  rw [decode]
  split_ifs <;> simp_all

theorem decode_eq_render_iff :
    decode w = .ok (.render idx) ↔
      (opcodeField w = 0b0011#4 ∧ w.extractLsb' 16 12 = 0#12) ∧ idxField w = idx := by
  rw [decode]
  split_ifs <;> simp_all

/-- A word of none of the three opcodes decodes to nothing (R78). -/
theorem decode_unassigned (hcget : opcodeField w ≠ 0b0001#4) (hcset : opcodeField w ≠ 0b0010#4)
    (hrender : opcodeField w ≠ 0b0011#4) : decode w = .error (.unassignedOpcode (opcodeField w)) := by
  rw [decode, if_neg hcget, if_neg hcset, if_neg hrender]

/-! ### Encoding and decoding -/

theorem opcodeField_eq_iff {op : BitVec 4} : opcodeField w = op ↔ w.toNat / 2 ^ 28 = op.toNat := by
  have hw := w.isLt
  rw [← BitVec.toNat_inj, opcodeField_toNat]
  omega

theorem field_eq_zero_iff (lo n : Nat) : w.extractLsb' lo n = 0#n ↔ w.toNat / 2 ^ lo % 2 ^ n = 0 := by
  rw [← BitVec.toNat_inj, toNat_field, BitVec.toNat_ofNat, Nat.zero_mod]

theorem attrField_eq_iff : attrField w = attr ↔ w.toNat / 2 ^ 8 % 256 = attr.toNat := by
  rw [← BitVec.toNat_inj, attrField_toNat]

theorem glyphField_eq_iff : glyphField w = glyph ↔ w.toNat % 256 = glyph.toNat := by
  rw [← BitVec.toNat_inj, glyphField_toNat]

theorem checkPosition_isNone_iff : (checkPosition row col).isNone = true ↔ row < 64 ∧ col < 64 := by
  rw [checkPosition]
  split_ifs <;> simp <;> omega

theorem wf_cget_iff : (Instr.cget row col).wf = true ↔ row < 64 ∧ col < 64 := checkPosition_isNone_iff

theorem wf_cset_iff : (Instr.cset row col glyph attr).wf = true ↔ row < 64 ∧ col < 64 := checkPosition_isNone_iff

theorem wf_render_iff : (Instr.render idx).wf = true ↔ idx < 65536 := by
  rw [Instr.wf, Instr.illFormed]
  split_ifs <;> simp <;> omega

/-- Settles O8, format by format: the fields of the encoded word, as numbers, are the operands. -/
theorem decodeOfEncode : Obligations.DecodeOfEncode := by
  intro i hwf
  cases i with
  | cget row col =>
    obtain ⟨hrow, hcol⟩ := wf_cget_iff.mp hwf
    simp only [decode_eq_cget_iff, opcodeField_eq_iff, field_eq_zero_iff, rowField_eq, colField_eq, encode_cget_toNat,
      BitVec.toNat_ofNat]
    omega
  | cset row col glyph attr =>
    obtain ⟨hrow, hcol⟩ := wf_cset_iff.mp hwf
    have hglyph := glyph.isLt
    have hattr := attr.isLt
    simp only [decode_eq_cset_iff, opcodeField_eq_iff, rowField_eq, colField_eq, glyphField_eq_iff, attrField_eq_iff,
      encode_cset_toNat, BitVec.toNat_ofNat]
    omega
  | render idx =>
    have hidx := wf_render_iff.mp hwf
    simp only [decode_eq_render_iff, opcodeField_eq_iff, field_eq_zero_iff, idxField_eq, encode_render_toNat,
      BitVec.toNat_ofNat]
    omega

/-- Settles O9, format by format: the opcode, the operand fields and the must-be-0 field leave no bit out. -/
theorem encodeOfDecode : Obligations.EncodeOfDecode := by
  intro w i h
  cases i with
  | cget row col =>
    obtain ⟨⟨hop, hzero⟩, rfl, rfl⟩ := decode_eq_cget_iff.mp h
    have hop : w.toNat / 2 ^ 28 = 1 := opcodeField_eq_iff.mp hop
    have hzero := (field_eq_zero_iff 0 16).mp hzero
    refine ⟨wf_cget_iff.mpr ⟨BitVec.isLt _, BitVec.isLt _⟩, BitVec.eq_of_toNat_eq ?_⟩
    rw [encode_cget_toNat, rowField_eq, colField_eq]
    omega
  | cset row col glyph attr =>
    obtain ⟨hop, rfl, rfl, rfl, rfl⟩ := decode_eq_cset_iff.mp h
    have hop : w.toNat / 2 ^ 28 = 2 := opcodeField_eq_iff.mp hop
    refine ⟨wf_cset_iff.mpr ⟨BitVec.isLt _, BitVec.isLt _⟩, BitVec.eq_of_toNat_eq ?_⟩
    rw [encode_cset_toNat, rowField_eq, colField_eq, glyphField_toNat, attrField_toNat]
    omega
  | render idx =>
    obtain ⟨⟨hop, hzero⟩, rfl⟩ := decode_eq_render_iff.mp h
    have hop : w.toNat / 2 ^ 28 = 3 := opcodeField_eq_iff.mp hop
    have hzero := (field_eq_zero_iff 16 12).mp hzero
    refine ⟨wf_render_iff.mpr (BitVec.isLt _), BitVec.eq_of_toNat_eq ?_⟩
    rw [encode_render_toNat, idxField_eq]
    omega

/-! ### Match and mask -/

theorem append_inj {n m : Nat} {x x' : BitVec n} {y y' : BitVec m} : x ++ y = x' ++ y' ↔ x = x' ∧ y = y' := by
  constructor
  · intro h
    have hhigh := congrArg (BitVec.extractLsb' m n) h
    have hlow := congrArg (BitVec.extractLsb' 0 m) h
    rw [BitVec.extractLsb'_append_eq_left, BitVec.extractLsb'_append_eq_left] at hhigh
    rw [BitVec.extractLsb'_append_eq_right, BitVec.extractLsb'_append_eq_right] at hlow
    exact ⟨hhigh, hlow⟩
  · rintro ⟨rfl, rfl⟩
    rfl

/-- A word cut at the borders of the masks of R76. -/
theorem word_eq_append_mask_parts (w : Word) : w = opcodeField w ++ w.extractLsb' 16 12 ++ w.extractLsb' 0 16 := by
  rw [opcodeField, BitVec.extractLsb'_append_extractLsb'_eq_extractLsb' (show 28 = 16 + 12 from rfl),
    BitVec.extractLsb'_append_extractLsb'_eq_extractLsb' (show 16 = 0 + 16 from rfl), BitVec.extractLsb'_eq_self]

/-- Masking and comparing a word is masking and comparing each of its parts. -/
theorem and_mask_eq_iff (w : Word) (m0 p0 : BitVec 4) (m1 p1 : BitVec 12) (m2 p2 : BitVec 16) :
    w &&& (m0 ++ m1 ++ m2) = p0 ++ p1 ++ p2 ↔
      opcodeField w &&& m0 = p0 ∧ w.extractLsb' 16 12 &&& m1 = p1 ∧ w.extractLsb' 0 16 &&& m2 = p2 := by
  conv_lhs => rw [word_eq_append_mask_parts w]
  rw [BitVec.and_append, BitVec.and_append, append_inj, append_inj, and_assoc]

theorem and_mask_cget_iff (w : Word) :
    w &&& 0xF000FFFF#32 = 0x10000000#32 ↔ opcodeField w = 0b0001#4 ∧ w.extractLsb' 0 16 = 0#16 := by
  have h := and_mask_eq_iff w (.allOnes 4) 1#4 0#12 0#12 (.allOnes 16) 0#16
  rw [BitVec.and_allOnes, BitVec.and_allOnes] at h
  simpa using h

theorem and_mask_cset_iff (w : Word) : w &&& 0xF0000000#32 = 0x20000000#32 ↔ opcodeField w = 0b0010#4 := by
  have h := and_mask_eq_iff w (.allOnes 4) 2#4 0#12 0#12 0#16 0#16
  rw [BitVec.and_allOnes] at h
  simpa using h

theorem and_mask_render_iff (w : Word) :
    w &&& 0xFFFF0000#32 = 0x30000000#32 ↔ opcodeField w = 0b0011#4 ∧ w.extractLsb' 16 12 = 0#12 := by
  have h := and_mask_eq_iff w (.allOnes 4) 3#4 (.allOnes 12) 0#12 0#16 0#16
  rw [BitVec.and_allOnes, BitVec.and_allOnes] at h
  simpa using h

theorem decode_cget_iff_mask : (∃ row col, decode w = .ok (.cget row col)) ↔ w &&& 0xF000FFFF#32 = 0x10000000#32 := by
  simp [decode_eq_cget_iff, and_mask_cget_iff]

theorem decode_cset_iff_mask :
    (∃ row col glyph attr, decode w = .ok (.cset row col glyph attr)) ↔ w &&& 0xF0000000#32 = 0x20000000#32 := by
  simp [decode_eq_cset_iff, and_mask_cset_iff]

theorem decode_render_iff_mask : (∃ idx, decode w = .ok (.render idx)) ↔ w &&& 0xFFFF0000#32 = 0x30000000#32 := by
  simp [decode_eq_render_iff, and_mask_render_iff]

/-- A word of opcode 0 or of 4 to 15 decodes to nothing, whatever its other bits (R76). -/
theorem decode_error_of_opcode (h : w.toNat / 2 ^ 28 = 0 ∨ 4 ≤ w.toNat / 2 ^ 28) : ∃ e, decode w = .error e := by
  refine ⟨_, decode_unassigned ?_ ?_ ?_⟩ <;>
    rw [Ne, opcodeField_eq_iff, BitVec.toNat_ofNat] <;>
    omega

/-- A word that matches none of the three patterns decodes to nothing (R78). -/
theorem decode_error_of_no_match (hcget : w &&& 0xF000FFFF#32 ≠ 0x10000000#32)
    (hcset : w &&& 0xF0000000#32 ≠ 0x20000000#32) (hrender : w &&& 0xFFFF0000#32 ≠ 0x30000000#32) :
    ∃ e, decode w = .error e := by
  rcases h : decode w with e | i
  · exact ⟨e, rfl⟩
  · cases i with
    | cget row col => exact absurd (decode_cget_iff_mask.mp ⟨_, _, h⟩) hcget
    | cset row col glyph attr => exact absurd (decode_cset_iff_mask.mp ⟨_, _, _, _, h⟩) hcset
    | render idx => exact absurd (decode_render_iff_mask.mp ⟨_, h⟩) hrender

/-- Settles O11: each mask asks for an opcode and its must-be-0 field, and the three opcodes differ. -/
theorem opcodeMapByMatchAndMask : Obligations.OpcodeMapByMatchAndMask := by
  refine ⟨fun _ => decode_cget_iff_mask, fun _ => decode_cset_iff_mask, fun _ => decode_render_iff_mask,
    fun _ => decode_error_of_opcode, fun w => ?disjoint⟩
  case disjoint =>
    rw [and_mask_cget_iff, and_mask_cset_iff, and_mask_render_iff]
    refine ⟨?_, ?_, ?_⟩
    · rintro ⟨⟨h, _⟩, h'⟩
      exact absurd (h.symm.trans h') (by decide)
    · rintro ⟨⟨h, _⟩, h', _⟩
      exact absurd (h.symm.trans h') (by decide)
    · rintro ⟨h, h', _⟩
      exact absurd (h.symm.trans h') (by decide)

/-- Settles O10: seven closed words. -/
theorem knownWordsDecode : Obligations.KnownWordsDecode := by
  refine ⟨?_, ?_, ?_, ?_, ?_, ?_, ?_⟩ <;> decide

end Sys2Proof
end

section
/-! Fields put together and taken apart: the response word (30_encoding.md R77), the two nibbles (R61), the colour
(R66) and the halves of an output word (R74). -/

namespace Sys2Proof.Machine

/-- Settles O12: the response word is the concatenation of its fields. -/
theorem responseWordFields : Obligations.ResponseWordFields := by
  refine ⟨fun r => ⟨?status, ?zeros, ?payload⟩, rfl, fun _ => rfl, rfl⟩
  case status => exact (BitVec.extractLsb'_append_eq_of_le (by decide)).trans BitVec.extractLsb'_append_eq_left
  case zeros => exact (BitVec.extractLsb'_append_eq_of_le (by decide)).trans BitVec.extractLsb'_append_eq_right
  case payload => exact BitVec.extractLsb'_append_eq_right

/-- Settles O13: the nibbles as quotient and remainder. -/
theorem attributeNibbles : Obligations.AttributeNibbles := by
  intro attr
  have hattr := attr.isLt
  simp only [fgIndex, bgIndex, BitVec.extractLsb'_toNat, Nat.shiftRight_eq_div_pow]
  omega

/-- Settles O14: adjacent fields join, from the top down. -/
theorem colourFields : Obligations.ColourFields := by
  intro colour
  rw [blueField, greenField, reservedBit, redField,
    BitVec.extractLsb'_append_extractLsb'_eq_extractLsb' (show 11 = 6 + 5 from rfl),
    BitVec.extractLsb'_append_extractLsb'_eq_extractLsb' (show 6 = 5 + 1 from rfl),
    BitVec.extractLsb'_append_extractLsb'_eq_extractLsb' (show 5 = 0 + 5 from rfl), BitVec.extractLsb'_eq_self]

theorem highHalf_append_lowHalf (w : Word) : highHalf w ++ lowHalf w = w := by
  rw [highHalf, lowHalf, BitVec.extractLsb'_append_extractLsb'_eq_extractLsb' (show 16 = 0 + 16 from rfl),
    BitVec.extractLsb'_eq_self]

/-- Settles O15: every word is the concatenation of its halves, and those of an assembled word are the two given. -/
theorem wordHalvesDoNotMix : Obligations.WordHalvesDoNotMix := by
  intro hi lo
  refine ⟨?_, lowHalf_wordOf hi lo, highHalf_wordOf hi lo⟩
  rw [← highHalf_append_lowHalf (wordOf hi lo), highHalf_wordOf, lowHalf_wordOf]

end Sys2Proof.Machine
end

section
/-! What a request is answered with: either form of a command alike, an illegal word by its failure (30_encoding.md R75,
R78), and every one of them by one response (R77). -/

namespace Sys2Proof.Machine

variable {s t : State} {rest : List Input}

theorem step_with_request {q : Request} {i : Instr} (hop : q.operation = .ok i) :
    step { s with inputs := .request q :: rest } = exec i { s with inputs := rest, buf := q.buf } :=
  step_of_request rfl hop

/-- Settles O42: both steps run the same command on the same state. -/
theorem binaryAndAbstractFormsAgree : Obligations.BinaryAndAbstractFormsAgree := by
  intro s i buf rest hwf
  have hword : Request.operation ⟨.word (encode i), buf⟩ = .ok i := decodeOfEncode i hwf
  have hcall : Request.operation ⟨.call i, buf⟩ = .ok i := rfl
  rw [step_with_request hword, step_with_request hcall]

/-- A request whose word decodes to nothing gets the failure alone (R78, R166). -/
theorem step_of_illegal {q : Request} {e : DecodeError} (h : s.inputs = .request q :: rest)
    (hop : q.operation = .error e) : step s = .next ((s.accept q rest).respond .illegalCommand 0) := by
  simp only [step, h, hop, State.rejectIllegal, raise_eq]

/-- Settles O43: a word of no pattern decodes to nothing. -/
theorem illegalCommandIsAnswered : Obligations.IllegalCommandIsAnswered := by
  intro s w buf rest h hcget hcset hrender
  obtain ⟨e, he⟩ := decode_error_of_no_match hcget hcset hrender
  exact step_of_illegal h he

/-- The buffer handed back has the length of the buffer lent: RENDER writes words over words, and nothing else writes
any. -/
theorem exec_response_buf_length {i : Instr} (h : exec i s = .next t) :
    ∃ a : Response, t.outputs = .response a :: s.outputs ∧ a.buf.length = s.buf.length := by
  cases i with
  | cget row col =>
    rcases execCget_cases h with ⟨_, rfl⟩ | ⟨_, rfl⟩ <;> exact ⟨_, rfl, rfl⟩
  | cset row col glyph attr =>
    rcases execCset_cases h with ⟨_, rfl⟩ | ⟨_, rfl⟩ <;> exact ⟨_, rfl, rfl⟩
  | render idx =>
    rcases execRender_cases h with ⟨_, hb, rfl⟩ | ⟨_, rfl⟩
    · exact ⟨_, rfl, writeRun_length _ _ hb⟩
    · exact ⟨_, rfl, rfl⟩

/-- Settles O44: of all that a step can do, two cases take a request, and each delivers one response. -/
theorem oneResponseForEachCommand : Obligations.OneResponseForEachCommand := by
  intro s t r rest hin h
  rcases hop : r.operation with e | i
  · rw [step_of_illegal hin hop] at h
    cases h
    exact ⟨_, rfl, rfl, fun _ => rfl, rfl⟩
  · rw [step_of_request hin hop] at h
    obtain ⟨_, hinputs, _, _, a, hout, hpayload⟩ := exec_next h
    obtain ⟨a', hout', hlen⟩ := exec_response_buf_length h
    obtain rfl : a = a' := by
      rw [hout] at hout'
      injection hout' with ha
      injection ha
    exact ⟨a, hout, hinputs, hpayload, hlen⟩

end Sys2Proof.Machine
end

section
/-! The colours of a rendered line (30_encoding.md R65, R71). -/

namespace Sys2Proof.Machine

/-- Every pixel of a line is a palette entry: the foreground or the background of its cell (R111, R112, R114). -/
theorem linePix_eq_palette (c : Config) (grid : Memory) {idx p : Nat} (h : idx < c.scanlines)
    (hp : p < c.pixelsPerLine) : ∃ k : Fin 16, (linePix c grid idx h)[p] = c.pal[k] := by
  rw [linePix_getElem, cellPixels, resolve_getElem, dotColor_eq]
  split
  · exact ⟨(fgIndex _).toFin, rfl⟩
  · exact ⟨(bgIndex _).toFin, rfl⟩

/-- Settles O40: the buffer reads back as LINEPIX but for the last position, where it reads as 0. -/
theorem renderedPixelsComeFromThePalette : Obligations.RenderedPixelsComeFromThePalette := by
  intro s t idx h hexec
  have hpos := s.cfg.columns_pos
  have hppl := s.cfg.pixelsPerLine_eq
  have hb : s.cfg.wordsPerLine ≤ s.buf.length := by
    rcases execRender_cases hexec with ⟨_, hb, _⟩ | ⟨hge, _⟩
    · exact hb
    · exact absurd h hge
  constructor
  · intro p hp
    obtain ⟨k, hk⟩ := linePix_eq_palette s.cfg s.grid h (show p < s.cfg.pixelsPerLine by omega)
    exact ⟨k, by rw [bufferPixel_render_eq_linePix h hb (by omega) (by omega), hk]⟩
  · rw [bufferPixel_render h hb ⟨8 * s.cfg.columns - 1, by omega⟩, scanlineRun, decodedPixel_pack, if_pos rfl]

end Sys2Proof.Machine
end

section
/-! Runs that take every input still to come, and the two pseudo-operations of 30_encoding.md R82 as such runs: FILL and
FRAME. -/

namespace Sys2Proof.Machine

/-! ### A run to the last input -/

/-- What holds before a run and is kept by every step that takes an input, each such step answering, holds after as many
steps as there are inputs. -/
theorem run_all_inputs {I : State → Prop}
    (hstep : ∀ s x xs, s.inputs = x :: xs → I s → ∃ t, step s = .next t ∧ t.inputs = xs ∧ I t) {s : State} (hs : I s) :
    ∃ t, Host.Core.run core s.inputs.length s = .next t ∧ t.inputs = [] ∧ I t := by
  induction hin : s.inputs generalizing s with
  | nil => exact ⟨s, rfl, hin, hs⟩
  | cons x xs ih =>
    obtain ⟨u, hu, hxs, hI⟩ := hstep s x xs hin hs
    obtain ⟨t, hrun, ht⟩ := ih hI hxs
    exact ⟨t, (run_succ_of_next hu xs.length).trans hrun, ht⟩

/-! ### FILL -/

section
variable {c : Config} {glyph attr : Byte}

theorem mem_fillInputs {x : Input} :
    x ∈ fillInputs c glyph attr ↔
      ∃ row col, row < c.rows ∧ col < c.columns ∧ callInput (.cset row col glyph attr) = x := by
  simp only [fillInputs, List.mem_flatMap, List.mem_map, List.mem_range]
  constructor
  · rintro ⟨row, hrow, col, hcol, rfl⟩
    exact ⟨row, col, hrow, hcol, rfl⟩
  · rintro ⟨row, col, hrow, hcol, rfl⟩
    exact ⟨row, hrow, col, hcol, rfl⟩

theorem fillInputs_length : (fillInputs c glyph attr).length = c.rows * c.columns := by
  simp [fillInputs, List.length_flatMap]

/-- A FILL under way: only its CSETs are still to come, and every cell holds the pair or has its CSET among them. -/
structure FillProgress (c : Config) (glyph attr : Byte) (s : State) : Prop where
  cfg : s.cfg = c
  pending : ∀ x ∈ s.inputs, x ∈ fillInputs c glyph attr
  cells : ∀ row col, row < c.rows → col < c.columns →
    callInput (.cset row col glyph attr) ∈ s.inputs ∨ s.cellAt row col = some ⟨glyph, attr⟩

theorem FillProgress.start {s : State} (h : s.inputs = fillInputs s.cfg glyph attr) :
    FillProgress s.cfg glyph attr s where
  cfg := rfl
  pending := fun _ hx => h ▸ hx
  cells := fun row col hrow hcol => .inl (h ▸ mem_fillInputs.mpr ⟨row, col, hrow, hcol, rfl⟩)

/-- The next CSET writes its own cell and leaves the others. -/
theorem FillProgress.step {s : State} {x : Input} {xs : List Input} (hin : s.inputs = x :: xs)
    (hs : FillProgress c glyph attr s) :
    ∃ t, Machine.step s = .next t ∧ t.inputs = xs ∧ FillProgress c glyph attr t := by
  obtain ⟨rfl, hpending, hcells⟩ := hs
  rw [hin] at hpending hcells
  obtain ⟨r, k, hr, hk, rfl⟩ := mem_fillInputs.mp (hpending x List.mem_cons_self)
  have hstep := (step_of_request hin rfl).trans
    (exec_cset_of_lt (s := s.accept ⟨.call (.cset r k glyph attr), []⟩ xs) glyph attr hr hk)
  refine ⟨_, hstep, rfl, rfl, fun y hy => hpending y (List.mem_cons_of_mem _ hy), fun row col hrow hcol => ?cells⟩
  case cells =>
    rw [cellAt_eq, gridCell_writeCell]
    by_cases hsame : row = r ∧ col = k
    · exact .inr (if_pos hsame)
    · rw [if_neg hsame]
      refine (hcells row col hrow hcol).imp_left fun hmem => (List.mem_cons.mp hmem).resolve_left fun heq => hsame ?_
      simpa [callInput] using heq

end

/-- Settles O48: every cell has its CSET in FILL, and none is left when the run ends. -/
theorem fillSetsEveryCell : Obligations.FillSetsEveryCell := by
  intro s glyph attr hin
  obtain ⟨t, hrun, hnil, hcfg, _, hcells⟩ := run_all_inputs (fun _ _ _ => FillProgress.step) (FillProgress.start hin)
  rw [hin, fillInputs_length] at hrun
  refine ⟨t, hrun, hnil, hcfg, fun row col hrow hcol => ?_⟩
  exact (hcells row col hrow hcol).resolve_left (by simp [hnil])

/-! ### FRAME -/

section
variable {c : Config} {grid : Memory} {buf : List Word}

/-- The response to a RENDER of a valid scanline (R135). -/
def okRender (c : Config) (grid : Memory) (buf : List Word) (idx : Nat) (h : idx < c.scanlines) : Response :=
  ⟨.ok, usedWords c, writeRun c (scanlineRun c grid idx h) buf⟩

theorem lastResponse_render {s : State} {idx : Nat} (h : idx < s.cfg.scanlines)
    (hb : s.cfg.wordsPerLine ≤ s.buf.length) :
    lastResponse (exec (.render idx) s) = some (okRender s.cfg s.grid s.buf idx h) := by
  rw [exec_render_of_le h hb]
  rfl

/-- A FRAME under way from `n` responses: the scanlines below `k` are answered, the newest first, and the `m` others are
still to come. -/
structure FrameProgress (c : Config) (grid : Memory) (buf : List Word) (n : Nat) (s : State) : Prop where
  cfg : s.cfg = c
  grid_eq : s.grid = grid
  answered : ∃ k m, k + m = c.scanlines ∧
    s.inputs = (List.range' k m).map (fun idx => .request ⟨.call (.render idx), buf⟩) ∧
    s.outputs.length = k + n ∧
    ∀ idx (h : idx < c.scanlines), idx < k → s.outputs[k - 1 - idx]? = some (.response (okRender c grid buf idx h))

theorem FrameProgress.start {s : State} (h : s.inputs = frameInputs s.cfg buf) :
    FrameProgress s.cfg s.grid buf s.outputs.length s := by
  refine ⟨rfl, rfl, 0, s.cfg.scanlines, Nat.zero_add _, ?_, (Nat.zero_add _).symm,
    fun _ _ hlt => absurd hlt (Nat.not_lt_zero _)⟩
  rw [h, frameInputs, List.range_eq_range']

/-- The next RENDER answers, in front of the responses so far, and leaves the grid. -/
theorem FrameProgress.step {n : Nat} (hb : c.wordsPerLine ≤ buf.length) {s : State} {x : Input} {xs : List Input}
    (hin : s.inputs = x :: xs) (hs : FrameProgress c grid buf n s) :
    ∃ t, Machine.step s = .next t ∧ t.inputs = xs ∧ FrameProgress c grid buf n t := by
  obtain ⟨rfl, rfl, k, m, hkm, hpending, hlen, hout⟩ := hs
  cases m with
  | zero => simp [hin] at hpending
  | succ m =>
    rw [List.range'_succ, List.map_cons, hin] at hpending
    obtain ⟨rfl, rfl⟩ := List.cons.inj hpending
    have hk : k < s.cfg.scanlines := by omega
    have hstep := (step_of_request hin rfl).trans
      (exec_render_of_le (s := s.accept ⟨.call (.render k), buf⟩ _) hk hb)
    refine ⟨_, hstep, rfl, rfl, rfl, k + 1, m, by omega, rfl, ?_, fun idx h hlt => ?_⟩
    · simp only [accept_outputs, List.length_cons, hlen]
      omega
    · rcases Nat.lt_succ_iff_lt_or_eq.mp hlt with hlt | rfl
      · have hpos : k + 1 - 1 - idx = k - 1 - idx + 1 := by omega
        rw [hpos]
        exact hout idx h hlt
      · rw [Nat.add_sub_cancel, Nat.sub_self]
        rfl

end

/-- Settles O49: when the run ends no scanline is left, so all are answered. -/
theorem frameRendersEveryScanline : Obligations.FrameRendersEveryScanline := by
  intro s buf hin hb
  have hbuf : s.cfg.wordsPerLine ≤ buf.length := s.cfg.wordsPerLine_eq ▸ hb
  obtain ⟨t, hrun, hnil, _, hgrid, k, m, hkm, hpending, hlen, hout⟩ :=
    run_all_inputs (fun _ _ _ => FrameProgress.step hbuf) (FrameProgress.start hin)
  obtain rfl : m = 0 := by simpa [hnil] using hpending.symm
  obtain rfl : k = s.cfg.scanlines := hkm
  rw [hin, frameInputs, List.length_map, List.length_range] at hrun
  refine ⟨t, hrun, hnil, hgrid, hlen, fun idx h => ⟨_, hout idx h h, ?_, rfl⟩⟩
  exact lastResponse_render (s := { s with buf := buf }) h hbuf

end Sys2Proof.Machine
end

section
/-! The grid store (40_grid_store.md): an equation for each outcome of CGET and CSET, CGET's answer as a function of the
cell alone, and the laws of R93 that follow. -/

namespace Sys2Proof.Machine

/-! ### The cell at a position -/

section
variable {c : Config} {m : Memory}

theorem gridCell_eq_some_iff {row col : Nat} {cell : Cell} :
    gridCell c m row col = some cell ↔
      ∃ (hr : row < c.rows) (hc : col < c.columns), readCell c m ⟨row, hr⟩ ⟨col, hc⟩ = cell := by
  constructor
  · intro h
    obtain ⟨hr, hc⟩ := gridCell_isSome.mp (Option.isSome_of_eq_some h)
    rw [gridCell_of_lt hr hc] at h
    exact ⟨hr, hc, Option.some.inj h⟩
  · rintro ⟨hr, hc, rfl⟩
    exact gridCell_of_lt hr hc

theorem gridCell_eq_none_iff {row col : Nat} :
    gridCell c m row col = none ↔ ¬ (row < c.rows ∧ col < c.columns) := by
  rw [← gridCell_isSome (m := m), Option.not_isSome_iff_eq_none]

/-- The write reads alike at the cell's own two bytes too, and canonical memories that read alike are equal (R91; log
entry 5). -/
theorem writeCell_readCell (h : Memory.wf c m) (row : Fin c.rows) (col : Fin c.columns) :
    writeCell c m row col (readCell c m row col) = m := by
  refine eq_of_read (writeCell_wf h) h fun x => ?_
  rw [read_writeCell]
  split_ifs with hattr hglyph
  · exact congrArg (Memory.read c m) hattr
  · exact congrArg (Memory.read c m) hglyph
  · rfl

end

/-! ### CGET and CSET, inside the grid and outside -/

variable {s t : State} {row col row' col' : Nat}

theorem not_inGrid_of_ge (h : s.cfg.rows ≤ row ∨ s.cfg.columns ≤ col) :
    ¬ (row < s.cfg.rows ∧ col < s.cfg.columns) := by
  omega

/-- CGET of a position of the grid (R90). -/
theorem exec_cget_of_some {cell : Cell} (h : s.cellAt row col = some cell) :
    exec (.cget row col) s = .next (s.respond .ok (cell.attr ++ cell.glyph)) := by
  obtain ⟨hr, hc, rfl⟩ := gridCell_eq_some_iff.mp h
  exact dif_pos ⟨hr, hc⟩

/-- CGET beyond the grid (R90, R165). -/
theorem exec_cget_of_not (h : ¬ (row < s.cfg.rows ∧ col < s.cfg.columns)) :
    exec (.cget row col) s = .next (s.respond (.outOfRange (.position row col)) 0) :=
  dif_neg h

/-- CSET beyond the grid, whatever the pair (R91, R165). -/
theorem exec_cset_of_not (glyph attr : Byte) (h : ¬ (row < s.cfg.rows ∧ col < s.cfg.columns)) :
    exec (.cset row col glyph attr) s = .next (s.respond (.outOfRange (.position row col)) 0) :=
  dif_neg h

/-- CGET writes neither the grid nor a parameter, so every position keeps its cell (R90, R93). -/
theorem cellAt_of_exec_cget (h : exec (.cget row col) s = .next t) : t.cellAt row' col' = s.cellAt row' col' := by
  rcases execCget_cases h with ⟨_, rfl⟩ | ⟨_, rfl⟩ <;> rfl

/-! ### What CGET answers -/

/-- The status and payload of a CGET of a position, from the cell there, if the grid has one (R77, R90). -/
def cgetAnswer (row col : Nat) : Option Cell → Status × BitVec 16
  | some cell => (.ok, cell.attr ++ cell.glyph)
  | none => (.outOfRange (.position row col), 0)

/-- Of the whole state CGET's answer depends on the one cell alone. -/
theorem reply_cget (s : State) (row col : Nat) :
    reply (exec (.cget row col) s) = some (cgetAnswer row col (s.cellAt row col)) := by
  rcases h : s.cellAt row col with _ | cell
  · rw [exec_cget_of_not (gridCell_eq_none_iff.mp h)]
    rfl
  · rw [exec_cget_of_some h]
    rfl

theorem reply_cget_congr (h : t.cellAt row col = s.cellAt row col) :
    reply (exec (.cget row col) t) = reply (exec (.cget row col) s) := by
  rw [reply_cget, reply_cget, h]

/-! ### The obligations -/

/-- Settles O19: the new grid is the old one with the one cell written, read by position and by byte address. -/
theorem csetWritesOneCell : Obligations.CsetWritesOneCell := by
  intro s row col glyph attr hr hc
  refine ⟨_, exec_cset_of_lt glyph attr hr hc, rfl, ?written, fun row' col' hne => ?others, fun a hg ha => ?bytes⟩
  case written => exact gridCell_writeCell.trans (if_pos ⟨rfl, rfl⟩)
  case others => exact gridCell_writeCell.trans (if_neg hne)
  case bytes => exact gridByte_writeCell_other hg ha

/-- Settles O21: the CSET writes over the cell what is read from it. -/
theorem csetOfTheSameValueKeepsTheGrid : Obligations.CsetOfTheSameValueKeepsTheGrid := by
  intro s row col cell hwf hcell
  obtain ⟨hr, hc, rfl⟩ := gridCell_eq_some_iff.mp hcell
  rw [exec_cset_of_lt _ _ hr hc, writeCell_readCell hwf]

/-- Settles O22: CGET's answers after a CSET are those of the cells that O19 describes. -/
theorem storeLaws : Obligations.StoreLaws := by
  refine ⟨fun s row col v hr hc => ?written, fun s t row col v hout h => ?outside, fun s t row col h => ?cget,
    fun s t i h => ?dimensions⟩
  case written =>
    obtain ⟨t, hexec, hstate, hcell, hothers, _⟩ := csetWritesOneCell s row col v.glyph v.attr hr hc
    refine ⟨t, hexec, ?_, ?_, fun row' col' hne => reply_cget_congr (hothers row' col' hne)⟩
    · rw [hexec, hstate]
      rfl
    · rw [reply_cget, hcell]
      rfl
  case outside =>
    rw [exec_cset_of_not _ _ (not_inGrid_of_ge hout)] at h
    cases h
    rfl
  case cget =>
    rcases execCget_cases h with ⟨_, rfl⟩ | ⟨_, rfl⟩ <;> rfl
  case dimensions =>
    obtain ⟨hcfg, _⟩ := exec_next h
    exact hcfg

/-- Settles O18: the two outcomes of the bounds check, and a repeated CGET finds the same cell. -/
theorem cgetReturnsTheCell : Obligations.CgetReturnsTheCell := by
  refine ⟨fun s row col hr hc => ?inside, fun s row col hout => ?outside, fun s t row col h => ?repeated⟩
  case inside =>
    have hcell : s.cellAt row col = some _ := gridCell_of_lt hr hc
    exact ⟨_, hcell, exec_cget_of_some hcell⟩
  case outside => exact exec_cget_of_not (not_inGrid_of_ge hout)
  case repeated => exact reply_cget_congr (cellAt_of_exec_cget h)

/-- Settles O20: the failure's response is all that happens. -/
theorem csetOutsideTheGridChangesNothing : Obligations.CsetOutsideTheGridChangesNothing := by
  intro s row col glyph attr hout
  exact exec_cset_of_not glyph attr (not_inGrid_of_ge hout)

end Sys2Proof.Machine
end

section
/-! The font lookup (41_font_palette.md): GLYPHROW of a printable code and of every other, and the pixels of a cell shown
on a line. -/

namespace Sys2Proof.Machine

variable {c : Config} {code : Byte} {row : Fin c.rowsPerGlyph}

/-- A printable code's row is the stored one (R100, R14). -/
theorem glyphRow_of_printable (h : Printable c code) :
    glyphRow c code row = c.font[(code.toNat - firstPrintable) * c.rowsPerGlyph + row]'(c.fontIndex_lt h.2 row.isLt) :=
  dif_pos h

/-- Every other code is blank (R100, R103). -/
theorem glyphRow_of_not_printable (h : ¬ Printable c code) : glyphRow c code row = 0x00#8 :=
  dif_neg h

/-- Settles O24: the two branches of the lookup, the first one inside the table. -/
theorem glyphRowLooksUpTheFont : Obligations.GlyphRowLooksUpTheFont := by
  intro c code row
  refine ⟨fun h => ?printable, fun h => glyphRow_of_not_printable h⟩
  case printable =>
    rw [glyphRow_of_printable h]
    exact List.getElem?_eq_getElem (c.fontIndex_lt h.2 row.isLt)

/-- A blank glyph row has no bit set, so each of the cell's dots selects the background (R103, R112). -/
theorem cellPixels_of_not_printable {cell : Cell} (h : ¬ Printable c cell.glyph) {d : Nat} (hd : d < 8) :
    some (cellPixels c cell row)[d] = c.pal[(cell.attr >>> 4).toNat]? := by
  have hbit : (glyphRow c cell.glyph row).getLsbD (7 - d) = false := by
    rw [glyphRow_of_not_printable h, BitVec.getLsbD_zero]
  rw [some_cellPixels_getElem, hbit, if_neg Bool.false_ne_true]

/-- The pixels of column `col` of a line are those of the cell at that column of the line's character row (R114). -/
theorem linePix_of_cellAt {s : State} {idx col d : Nat} {cell : Cell} (h : idx < s.cfg.scanlines)
    (hcell : s.cellAt (idx / s.cfg.rowsPerGlyph) col = some cell) (hd : d < 8)
    (hp : 8 * col + d < s.cfg.pixelsPerLine) :
    (linePix s.cfg s.grid idx h)[8 * col + d] =
      (cellPixels s.cfg cell ⟨idx % s.cfg.rowsPerGlyph, Nat.mod_lt _ s.cfg.rowsPerGlyph_pos⟩)[d] := by
  obtain ⟨_, hc, rfl⟩ := gridCell_eq_some_iff.mp hcell
  exact linePix_column s.cfg s.grid h hc hd hp

/-- Settles O29: the line shows the cell, and the cell is blank on whichever of its glyph rows the scanline meets. -/
theorem nonPrintableCodeIsSolidBackground : Obligations.NonPrintableCodeIsSolidBackground := by
  intro s idx h col cell hcell hcode d hd hp
  rw [linePix_of_cellAt h hcell hd hp, cellPixels_of_not_printable hcode hd]

end Sys2Proof.Machine
end

section
/-! The rasterizer (42_rasterizer.md): SCANMUX, CELLCOLORS and RESOLVE, the closed form of one pixel of a line, and what a
line depends on. -/

namespace Sys2Proof.Machine

/-! ### The parts of LINEPIX -/

/-- Settles O27: quotient and remainder of the index, and SCANLINES is ROWS times the divisor. -/
theorem scanMuxSplitsTheIndex : Obligations.ScanMuxSplitsTheIndex := by
  intro c idx
  refine ⟨rfl, rfl, ?recovered, ?glyphRow, ?beyond⟩
  case recovered => exact (Nat.div_add_mod' idx c.rowsPerGlyph).symm
  case glyphRow => exact Nat.mod_lt idx c.rowsPerGlyph_pos
  case beyond => exact Nat.le_div_iff_mul_le c.rowsPerGlyph_pos

/-- Settles O25: a mask or a shift names the same palette entry as the nibble it selects. -/
theorem cellColoursFromTheNibbles : Obligations.CellColoursFromTheNibbles :=
  fun c attr => ⟨pal_fgIndex c attr, pal_bgIndex c attr⟩

/-- The walk in dot pairs selects each dot's colour by that dot's bit alone (R112, R113). -/
theorem resolve_getElem_eq_ite (bitmap : Byte) (fg bg : Pixel) {d : Nat} (h : d < 8) :
    (resolve bitmap fg bg)[d] = if bitmap.getLsbD (7 - d) then fg else bg := by
  rw [resolve_getElem, dotColor_eq]

/-- Settles O26: dot pair `k` is dots `2k` and `2k + 1`. -/
theorem resolveSelectsByTheBit : Obligations.ResolveSelectsByTheBit := by
  intro bitmap fg bg
  refine ⟨fun d h => resolve_getElem_eq_ite bitmap fg bg h, fun k h => ⟨?even, ?odd⟩⟩
  case even => exact resolve_getElem_eq_ite bitmap fg bg (by omega)
  case odd =>
    have hbit : 7 - (2 * k + 1) = 6 - 2 * k := by omega
    rw [resolve_getElem_eq_ite bitmap fg bg (by omega), hbit]

/-! ### One pixel of a line -/

section
variable {c c' : Config} {grid grid' : Memory} {idx : Nat}

/-- R115, for the parameters and the grid alone. -/
theorem linePix_closedForm (h : idx < c.scanlines) {p : Nat} (hp : p < c.pixelsPerLine) :
    ∃ cell, gridCell c grid (idx / c.rowsPerGlyph) (p / 8) = some cell ∧
      some (linePix c grid idx h)[p] =
        if (glyphRow c cell.glyph ⟨idx % c.rowsPerGlyph, Nat.mod_lt _ c.rowsPerGlyph_pos⟩).getLsbD (7 - p % 8)
        then c.pal[(cell.attr &&& 0xF#8).toNat]?
        else c.pal[(cell.attr >>> 4).toNat]? := by
  have hcol : p / 8 < c.columns := by
    rw [c.pixelsPerLine_eq] at hp
    omega
  refine ⟨_, gridCell_of_lt (c.charRow_lt h) hcol, ?_⟩
  rw [linePix_getElem, some_cellPixels_getElem]

/-! ### What a line depends on -/

/-- The font has one entry for each printable code, so its length determines the last of them (R6, R23). -/
theorem lastPrintable_eq_of_font (hfont : c.font = c'.font) (hheight : c.rowsPerGlyph = c'.rowsPerGlyph) :
    c.lastPrintable = c'.lastPrintable := by
  have hentries : c.lastPrintable - firstPrintable + 1 = c'.lastPrintable - firstPrintable + 1 := by
    refine Nat.eq_of_mul_eq_mul_right c.rowsPerGlyph_pos ?_
    rw [← c.font_length, hfont, c'.font_length, hheight]
  have hfirst := c.firstPrintable_le
  have hfirst' := c'.firstPrintable_le
  omega

/-- GLYPHROW reads of the parameters FONT and ROWS_PER_GLYPH alone (R100, R104). -/
theorem glyphRow_congr (hfont : c.font = c'.font) (hheight : c.rowsPerGlyph = c'.rowsPerGlyph) (code : Byte)
    {row : Fin c.rowsPerGlyph} {row' : Fin c'.rowsPerGlyph} (hrow : row.val = row'.val) :
    glyphRow c code row = glyphRow c' code row' := by
  have hlast := lastPrintable_eq_of_font hfont hheight
  by_cases hcode : Printable c code
  · have hcode' : Printable c' code := ⟨hcode.1, hlast ▸ hcode.2⟩
    simp only [glyphRow_of_printable hcode, glyphRow_of_printable hcode', hfont, hheight, hrow]
  · have hcode' : ¬ Printable c' code := fun hc => hcode ⟨hc.1, hlast ▸ hc.2⟩
    rw [glyphRow_of_not_printable hcode, glyphRow_of_not_printable hcode']

/-- R116: of the grid the pixels of a line depend on the cells of its character row alone, of the parameters on FONT, PAL,
COLUMNS and ROWS_PER_GLYPH. -/
theorem linePix_toList_congr (h : idx < c.scanlines) (h' : idx < c'.scanlines) (hfont : c.font = c'.font)
    (hpal : c.pal = c'.pal) (hcolumns : c.columns = c'.columns) (hheight : c.rowsPerGlyph = c'.rowsPerGlyph)
    (hcells : ∀ col, gridCell c grid (idx / c.rowsPerGlyph) col = gridCell c' grid' (idx / c.rowsPerGlyph) col) :
    (linePix c grid idx h).toList = (linePix c' grid' idx h').toList := by
  have hlength : c.pixelsPerLine = c'.pixelsPerLine := by rw [c.pixelsPerLine_eq, c'.pixelsPerLine_eq, hcolumns]
  refine List.ext_getElem (by simpa using hlength) fun p hp hp' => ?_
  rw [Vector.length_toList] at hp hp'
  obtain ⟨cell, hcell, hpix⟩ := linePix_closedForm (grid := grid) h hp
  obtain ⟨cell', hcell', hpix'⟩ := linePix_closedForm (grid := grid') h' hp'
  obtain rfl : cell = cell' := by
    rw [hcells, hheight] at hcell
    exact Option.some.inj (hcell.symm.trans hcell')
  have hbits := glyphRow_congr hfont hheight cell.glyph
    (row := ⟨idx % c.rowsPerGlyph, Nat.mod_lt _ c.rowsPerGlyph_pos⟩)
    (row' := ⟨idx % c'.rowsPerGlyph, Nat.mod_lt _ c'.rowsPerGlyph_pos⟩) (congrArg (idx % ·) hheight)
  rw [hbits, hpal] at hpix
  exact Option.some.inj (hpix.trans hpix'.symm)

/-- A cell written to another character row changes no pixel of the line (R116). -/
theorem linePix_writeCell_other (h : idx < c.scanlines) {row : Fin c.rows} (hrow : row.val ≠ idx / c.rowsPerGlyph)
    (col : Fin c.columns) (cell : Cell) : linePix c (writeCell c grid row col cell) idx h = linePix c grid idx h := by
  refine Vector.toList_inj.mp (linePix_toList_congr h h rfl rfl rfl rfl fun k => ?_)
  rw [gridCell_writeCell, if_neg fun hpos => hrow hpos.1.symm]

end

/-- Settles O28: R115's closed form, read by the machine's own parameters and grid. -/
theorem pixelClosedForm : Obligations.PixelClosedForm :=
  fun _ _ h _ hp => linePix_closedForm h hp

/-- Settles O30: the first part compares two machines, the second the grid before and after the CSET. -/
theorem lineIgnoresOtherRows : Obligations.LineIgnoresOtherRows := by
  refine ⟨fun s s' idx h h' hfont hpal hcolumns hheight hcells => ?alike,
    fun s t row col glyph attr idx h hexec hrow => ?cset⟩
  case alike => exact linePix_toList_congr h h' hfont hpal hcolumns hheight hcells
  case cset =>
    rcases execCset_cases hexec with ⟨hpos, rfl⟩ | ⟨_, rfl⟩
    · exact linePix_writeCell_other h hrow ⟨col, hpos.2⟩ ⟨glyph, attr⟩
    · rfl

end Sys2Proof.Machine
end

section
/-! The packer: the fixed fields of a packed line (43_packer.md R130), and which lines pack alike (R128). -/

namespace Sys2Proof.Machine

section
variable {c : Config} (pix : Vector Pixel c.pixelsPerLine)

/-! ### The fixed fields of a packed line -/

/-- The high half of the word before the end-of-line word is forced (R125). -/
theorem highHalf_pack_last : ∃ w, (pack c pix)[4 * c.columns]? = some w ∧ highHalf w = 0x0000#16 := by
  have hwpl := c.wordsPerLine_eq
  rw [Nat.mul_comm 4, Vector.getElem?_eq_getElem (by omega)]
  exact ⟨_, rfl, by rw [pack_last, highHalf_wordOf]⟩

/-- The low half of word 0 is the marker (R121). -/
theorem lowHalf_pack_zero : ∃ w, (pack c pix)[0]? = some w ∧ lowHalf w = c.rawRunMarker := by
  have hpos := c.columns_pos
  have hppl := c.pixelsPerLine_eq
  have hwpl := c.wordsPerLine_eq
  rw [Vector.getElem?_eq_getElem (by omega)]
  exact ⟨_, rfl, by rw [pack_zero c pix _ (by omega), lowHalf_wordOf]⟩

/-- The low half of word 1 is the run's count, which 16 bits hold (R9, R122). -/
theorem lowHalf_pack_one :
    ∃ w, (pack c pix)[1]? = some w ∧ (lowHalf w).toNat = 8 * c.columns - 3 := by
  have hpos := c.columns_pos
  have hppl := c.pixelsPerLine_eq
  have hwpl := c.wordsPerLine_eq
  have hcount : c.runCountField = 8 * c.columns - 3 := by rw [Config.runCountField, Nat.mul_comm]
  rw [Vector.getElem?_eq_getElem (by omega)]
  exact ⟨_, rfl, by rw [pack_one c pix _ (by omega), lowHalf_wordOf, c.runCountField_toNat, hcount]⟩

/-- The last word is the end-of-line marker (R126). -/
theorem pack_getElem?_eol : (pack c pix)[4 * c.columns + 1]? = some c.endOfLineMarker := by
  have hwpl := c.wordsPerLine_eq
  rw [Nat.mul_comm 4, Vector.getElem?_eq_getElem (by omega), pack_eol]

/-! ### Lines that pack alike -/

variable {pix} {pix' : Vector Pixel c.pixelsPerLine}

/-- No word of a packed line is made of the last pixel (R128). -/
theorem pack_congr (hagree : ∀ (p : Nat) (hp : p < c.pixelsPerLine), p ≠ 8 * c.columns - 1 → pix[p] = pix'[p]) :
    pack c pix = pack c pix' := by
  have hpos := c.columns_pos
  have hppl := c.pixelsPerLine_eq
  have hwpl := c.wordsPerLine_eq
  refine Vector.ext fun i hi => ?_
  obtain rfl | rfl | ⟨h2, hlt⟩ | rfl | rfl : i = 0 ∨ i = 1 ∨ (2 ≤ i ∧ i < c.columns * 4) ∨ i = c.columns * 4 ∨
      i = c.columns * 4 + 1 := by omega
  · rw [pack_zero c pix _ (by omega), pack_zero c pix' _ (by omega), hagree 0 _ (by omega)]
  · rw [pack_one c pix _ (by omega), pack_one c pix' _ (by omega), hagree 1 _ (by omega)]
  · rw [pack_pair c pix h2 hlt, pack_pair c pix' h2 hlt, hagree (2 * i - 1) _ (by omega),
      hagree (2 * i - 2) _ (by omega)]
  · rw [pack_last, pack_last, hagree (8 * c.columns - 2) _ (by omega)]
  · rw [pack_eol, pack_eol]

/-- Lines that pack alike are read back alike (R130), so they differ in the last pixel at most. -/
theorem getElem_eq_of_pack_eq (hpack : pack c pix = pack c pix') {p : Fin c.pixelsPerLine}
    (hne : p.val ≠ 8 * c.columns - 1) : pix[p] = pix'[p] :=
  calc pix[p] = decodedPixel c (pack c pix) p := by rw [decodedPixel_pack, if_neg hne]
    _ = decodedPixel c (pack c pix') p := by rw [hpack]
    _ = pix'[p] := by rw [decodedPixel_pack, if_neg hne]

end

/-- Settles O31: the five fixed fields, and the line read back. -/
theorem packedLineInvariants : Obligations.PackedLineInvariants := by
  intro c pix
  have hlength : (pack c pix).toList.length = 4 * c.columns + 2 := by
    rw [Vector.length_toList, c.wordsPerLine_eq, Nat.mul_comm]
  exact ⟨hlength, highHalf_pack_last pix, lowHalf_pack_zero pix, lowHalf_pack_one pix, pack_getElem?_eol pix,
    decodedPixel_pack pix⟩

/-- Settles O32: packing forgets the last pixel, and reading back recovers every other one. -/
theorem packDropsTheLastPixelAlone : Obligations.PackDropsTheLastPixelAlone :=
  fun _ _ _ => ⟨fun hpack _ hne => getElem_eq_of_pack_eq hpack hne,
    fun hagree => pack_congr fun p hp hne => hagree ⟨p, hp⟩ hne⟩

end Sys2Proof.Machine
end

section
/-! RENDER (44_render.md): the closed form of every word (R137) over a line's pixels as a function of their cells, what
the words depend on (R138, R139), and RENDER beyond the scanlines (R136). -/

namespace Sys2Proof.Machine

/-! ### The pixels of a line by position -/

section
variable {c c' : Config} {grid grid' : Memory} {idx : Nat}

/-- PIX of R115 at every natural position: the dot of the cell there, and 0 where the grid has no cell. -/
def linePixel (c : Config) (grid : Memory) (idx p : Nat) : Pixel :=
  match gridCell c grid (idx / c.rowsPerGlyph) (p / 8) with
  | some cell =>
    (cellPixels c cell ⟨idx % c.rowsPerGlyph, Nat.mod_lt _ c.rowsPerGlyph_pos⟩)[p % 8]'(Nat.mod_lt _ (by decide))
  | none => 0

theorem linePixel_of_cell {p : Nat} {cell : Cell}
    (hcell : gridCell c grid (idx / c.rowsPerGlyph) (p / 8) = some cell) :
    linePixel c grid idx p =
      (cellPixels c cell ⟨idx % c.rowsPerGlyph, Nat.mod_lt _ c.rowsPerGlyph_pos⟩)[p % 8]'(Nat.mod_lt _ (by decide)) := by
  rw [linePixel, hcell]

theorem linePixel_of_no_cell {p : Nat} (hcell : gridCell c grid (idx / c.rowsPerGlyph) (p / 8) = none) :
    linePixel c grid idx p = 0 := by
  rw [linePixel, hcell]

/-- On the line it is LINEPIX (R114). -/
theorem linePix_eq_linePixel (h : idx < c.scanlines) {p : Nat} (hp : p < c.pixelsPerLine) :
    (linePix c grid idx h)[p] = linePixel c grid idx p := by
  have hcol : p / 8 < c.columns := by
    rw [c.pixelsPerLine_eq] at hp
    omega
  rw [linePix_getElem, linePixel_of_cell (gridCell_of_lt (c.charRow_lt h) hcol)]

/-- The parameters that R138 lets RENDER's result depend on have the same values. -/
structure SameRenderParameters (c c' : Config) : Prop where
  font : c.font = c'.font
  pal : c.pal = c'.pal
  rawRunMarker : c.rawRunMarker = c'.rawRunMarker
  endOfLineMarker : c.endOfLineMarker = c'.endOfLineMarker
  columns : c.columns = c'.columns
  rowsPerGlyph : c.rowsPerGlyph = c'.rowsPerGlyph

theorem SameRenderParameters.of_eq (h : c = c') : SameRenderParameters c c' := by
  subst h
  exact ⟨rfl, rfl, rfl, rfl, rfl, rfl⟩

/-- A scanline is valid exactly when its character row has cells (R14, R110). -/
theorem lt_scanlines_iff (c : Config) (grid : Memory) (idx : Nat) :
    idx < c.scanlines ↔ (gridCell c grid (idx / c.rowsPerGlyph) 0).isSome = true := by
  rw [gridCell_isSome, Nat.div_lt_iff_lt_mul c.rowsPerGlyph_pos]
  exact (and_iff_left c.columns_pos).symm

/-- Of the grid a pixel depends on the cell of its column alone (R116). -/
theorem linePixel_congr (hc : SameRenderParameters c c') {p : Nat}
    (hcell : gridCell c grid (idx / c.rowsPerGlyph) (p / 8) = gridCell c' grid' (idx / c.rowsPerGlyph) (p / 8)) :
    linePixel c grid idx p = linePixel c' grid' idx p := by
  have hcell : gridCell c grid (idx / c.rowsPerGlyph) (p / 8) = gridCell c' grid' (idx / c'.rowsPerGlyph) (p / 8) := by
    rw [hcell, hc.rowsPerGlyph]
  rcases h : gridCell c grid (idx / c.rowsPerGlyph) (p / 8) with _ | cell
  · rw [linePixel_of_no_cell h, linePixel_of_no_cell (hcell.symm.trans h)]
  · have hbits := glyphRow_congr hc.font hc.rowsPerGlyph cell.glyph
      (row := ⟨idx % c.rowsPerGlyph, Nat.mod_lt _ c.rowsPerGlyph_pos⟩)
      (row' := ⟨idx % c'.rowsPerGlyph, Nat.mod_lt _ c'.rowsPerGlyph_pos⟩) (congrArg (idx % ·) hc.rowsPerGlyph)
    rw [linePixel_of_cell h, linePixel_of_cell (hcell.symm.trans h)]
    simp only [cellPixels, cellColors, color, hbits, hc.pal]

end

/-! ### The words of a run by index -/

section
variable (c : Config) (pix : Nat → Pixel)

/-- R137: word `i` of the run that a line with the pixels `pix` packs to. -/
def runWord (i : Nat) : Word :=
  if i = 0 then pix 0 ++ c.rawRunMarker
  else if i = 1 then pix 1 ++ BitVec.ofNat 16 (8 * c.columns - 3)
  else if i < 4 * c.columns then pix (2 * i - 1) ++ pix (2 * i - 2)
  else if i = 4 * c.columns then 0x0000#16 ++ pix (8 * c.columns - 2)
  else c.endOfLineMarker

theorem runWord_zero : runWord c pix 0 = pix 0 ++ c.rawRunMarker := rfl

theorem runWord_one : runWord c pix 1 = pix 1 ++ BitVec.ofNat 16 (8 * c.columns - 3) := rfl

theorem runWord_pair {i : Nat} (h2 : 2 ≤ i) (hi : i < 4 * c.columns) :
    runWord c pix i = pix (2 * i - 1) ++ pix (2 * i - 2) := by
  rw [runWord, if_neg (by omega), if_neg (by omega), if_pos hi]

theorem runWord_last : runWord c pix (4 * c.columns) = 0x0000#16 ++ pix (8 * c.columns - 2) := by
  have hpos := c.columns_pos
  rw [runWord, if_neg (by omega), if_neg (by omega), if_neg (Nat.lt_irrefl _), if_pos rfl]

theorem runWord_eol : runWord c pix (4 * c.columns + 1) = c.endOfLineMarker := by
  have hpos := c.columns_pos
  rw [runWord, if_neg (by omega), if_neg (by omega), if_neg (by omega), if_neg (by omega)]

variable {c pix} {c' : Config} {pix' : Nat → Pixel}

/-- Every word is made of pixels of one column, word `i` of column `(i - 1) div 4` (R139). -/
theorem runWord_congr (hc : SameRenderParameters c c') {i : Nat} (hpix : ∀ p, p / 8 = (i - 1) / 4 → pix p = pix' p) :
    runWord c pix i = runWord c' pix' i := by
  simp only [runWord, ← hc.rawRunMarker, ← hc.endOfLineMarker, ← hc.columns]
  split_ifs with h0 h1 hpair hlast
  · rw [hpix 0 (by omega)]
  · rw [hpix 1 (by omega)]
  · rw [hpix (2 * i - 1) (by omega), hpix (2 * i - 2) (by omega)]
  · rw [hpix (8 * c.columns - 2) (by omega)]
  · rfl

/-- PACK is R137's closed form (R128). -/
theorem pack_eq_runWord {pixels : Vector Pixel c.pixelsPerLine}
    (hpixels : ∀ (p : Nat) (hp : p < c.pixelsPerLine), pixels[p] = pix p) {i : Nat} (hi : i < c.wordsPerLine) :
    (pack c pixels)[i] = runWord c pix i := by
  have hpos := c.columns_pos
  have hppl := c.pixelsPerLine_eq
  have hwpl := c.wordsPerLine_eq
  have hword : ∀ hi lo : BitVec 16, wordOf hi lo = hi ++ lo := fun hi lo => (wordHalvesDoNotMix hi lo).1
  obtain rfl | rfl | ⟨h2, hlt⟩ | rfl | rfl : i = 0 ∨ i = 1 ∨ (2 ≤ i ∧ i < c.columns * 4) ∨ i = c.columns * 4 ∨
      i = c.columns * 4 + 1 := by omega
  · rw [pack_zero c pixels _ (by omega), hpixels, hword, runWord_zero]
  · rw [pack_one c pixels _ (by omega), hpixels, hword, runWord_one, Config.runCountField, Nat.mul_comm 8]
  · rw [pack_pair c pixels h2 hlt, hpixels, hpixels, hword, runWord_pair c pix h2 (by omega)]
  · rw [pack_last, hpixels, hword, Nat.mul_comm c.columns, runWord_last]
  · rw [pack_eol, Nat.mul_comm c.columns, runWord_eol]

/-- The Scanline Pixel Run, word by word (R137). -/
theorem scanlineRun_getElem {grid : Memory} {idx : Nat} (h : idx < c.scanlines) {i : Nat} (hi : i < c.wordsPerLine) :
    (scanlineRun c grid idx h)[i] = runWord c (linePixel c grid idx) i :=
  pack_eq_runWord (fun _ hp => linePix_eq_linePixel h hp) hi

end

/-! ### The closed form, and RENDER beyond the scanlines -/

/-- Settles O33: the buffer handed back is the run, whose words are `runWord` over `linePixel`, above the rest of the
buffer lent. -/
theorem renderClosedForm : Obligations.RenderClosedForm := by
  intro s idx h hb
  have hwpl := s.cfg.wordsPerLine_eq
  have hb : s.cfg.wordsPerLine ≤ s.buf.length := hwpl ▸ hb
  have hword : ∀ {i}, i < s.cfg.wordsPerLine →
      (writeRun s.cfg (scanlineRun s.cfg s.grid idx h) s.buf)[i]? =
        some (runWord s.cfg (linePixel s.cfg s.grid idx) i) := fun hi => by
    rw [writeRun_getElem?_lt _ _ _ hi, scanlineRun_getElem h hi]
  refine ⟨linePixel s.cfg s.grid idx, usedWords s.cfg, writeRun s.cfg (scanlineRun s.cfg s.grid idx h) s.buf,
    fun p hp => ?pixels, exec_render_of_le h hb, ?used, writeRun_length _ _ hb, ?zero, ?one, fun i h2 hi => ?pair,
    ?last, ?eol, fun i hi => writeRun_getElem?_ge _ _ _ (by omega)⟩
  case pixels =>
    have hp : p < s.cfg.pixelsPerLine := by
      rw [s.cfg.pixelsPerLine_eq]
      omega
    rw [← linePix_eq_linePixel h hp]
    exact linePix_closedForm h hp
  case used => rw [usedWords_toNat, hwpl, Nat.mul_comm]
  case zero => rw [hword (by omega), runWord_zero]
  case one => rw [hword (by omega), runWord_one]
  case pair => rw [hword (by omega), runWord_pair _ _ h2 (by omega)]
  case last => rw [hword (by omega), runWord_last]
  case eol => rw [hword (by omega), runWord_eol]

/-- Settles O34: the bounds check comes before the buffer contract. -/
theorem renderOutsideTheScanlines : Obligations.RenderOutsideTheScanlines := by
  intro s idx h
  exact execRender_of_ge h

/-! ### What the words of a buffer depend on -/

section
variable {s s' t t' : State} {idx : Nat}

theorem bufferWord_render_eq_runWord (h : idx < s.cfg.scanlines) (hb : s.cfg.wordsPerLine ≤ s.buf.length) {i : Nat}
    (hi : i < s.cfg.wordsPerLine) :
    bufferWord (exec (.render idx) s) i = some (runWord s.cfg (linePixel s.cfg s.grid idx) i) := by
  rw [bufferWord_render h hb hi, scanlineRun_getElem]

/-- A RENDER of a valid scanline that answers was lent its buffer (R57). -/
theorem lent_of_exec_render (h : idx < s.cfg.scanlines) (hexec : exec (.render idx) s = .next t) :
    s.cfg.wordsPerLine ≤ s.buf.length := by
  rcases execRender_cases hexec with ⟨_, hb, _⟩ | ⟨hge, _⟩
  · exact hb
  · exact absurd h hge

/-- Of the grid word `i` of a rendered line depends on the one cell of column `(i - 1) div 4` (R139). -/
theorem runWord_linePixel_congr (hc : SameRenderParameters s.cfg s'.cfg) {i : Nat}
    (hcell : s.cellAt (idx / s.cfg.rowsPerGlyph) ((i - 1) / 4) = s'.cellAt (idx / s.cfg.rowsPerGlyph) ((i - 1) / 4)) :
    runWord s.cfg (linePixel s.cfg s.grid idx) i = runWord s'.cfg (linePixel s'.cfg s'.grid idx) i := by
  refine runWord_congr hc fun p hp => linePixel_congr hc ?_
  rw [hp]
  exact hcell

/-- The same of the word that two machines of one configuration hand back. -/
theorem bufferWord_render_congr (hcfg : s.cfg = s'.cfg) (h : idx < s.cfg.scanlines)
    (hexec : exec (.render idx) s = .next t) (hexec' : exec (.render idx) s' = .next t') {i : Nat}
    (hi : i < s.cfg.wordsPerLine)
    (hcell : s.cellAt (idx / s.cfg.rowsPerGlyph) ((i - 1) / 4) = s'.cellAt (idx / s.cfg.rowsPerGlyph) ((i - 1) / 4)) :
    bufferWord (exec (.render idx) s) i = bufferWord (exec (.render idx) s') i := by
  have h' : idx < s'.cfg.scanlines := hcfg ▸ h
  rw [bufferWord_render_eq_runWord h (lent_of_exec_render h hexec) hi,
    bufferWord_render_eq_runWord h' (lent_of_exec_render h' hexec') (hcfg ▸ hi),
    runWord_linePixel_congr (.of_eq hcfg) hcell]

/-- The pixel read back depends on the cell of its column, and in the last position on none (R125, R139). -/
theorem bufferPixel_render_congr (hcfg : s.cfg = s'.cfg) (h : idx < s.cfg.scanlines)
    (hexec : exec (.render idx) s = .next t) (hexec' : exec (.render idx) s' = .next t') {p : Nat}
    (hp : p < 8 * s.cfg.columns)
    (hcell : p ≠ 8 * s.cfg.columns - 1 →
      s.cellAt (idx / s.cfg.rowsPerGlyph) (p / 8) = s'.cellAt (idx / s.cfg.rowsPerGlyph) (p / 8)) :
    bufferPixel (exec (.render idx) s) p = bufferPixel (exec (.render idx) s') p := by
  have h' : idx < s'.cfg.scanlines := hcfg ▸ h
  by_cases hlast : p = 8 * s.cfg.columns - 1
  · obtain ⟨_, hforced⟩ := renderedPixelsComeFromThePalette s t idx h hexec
    obtain ⟨_, hforced'⟩ := renderedPixelsComeFromThePalette s' t' idx h' hexec'
    rw [hlast, hforced, hcfg, hforced']
  · have hline : p < s.cfg.pixelsPerLine := by
      rw [s.cfg.pixelsPerLine_eq]
      omega
    rw [bufferPixel_render_eq_linePix h (lent_of_exec_render h hexec) hline hlast,
      bufferPixel_render_eq_linePix h' (lent_of_exec_render h' hexec') (hcfg ▸ hline) (hcfg ▸ hlast),
      linePix_eq_linePixel, linePix_eq_linePixel, linePixel_congr (.of_eq hcfg) (hcell hlast)]

end

/-- Settles O37: word by word through the one column it shows, and the last column pixel by pixel. -/
theorem renderWordsDependOnOneCell : Obligations.RenderWordsDependOnOneCell := by
  intro s s' t t' idx hcfg h hexec hexec'
  have hpos := s.cfg.columns_pos
  have hwpl := s.cfg.wordsPerLine_eq
  refine ⟨fun i hi hcell => ?header, fun i _ hi hcell => ?pixels, ?eol, fun hcells p hp hout => ?lastColumn⟩
  case header =>
    have hcol : (i - 1) / 4 = 0 := by omega
    exact bufferWord_render_congr hcfg h hexec hexec' (by omega) (hcol ▸ hcell)
  case pixels => exact bufferWord_render_congr hcfg h hexec hexec' (by omega) hcell
  case eol =>
    have h' : idx < s'.cfg.scanlines := hcfg ▸ h
    have hi : 4 * s.cfg.columns + 1 < s.cfg.wordsPerLine := by omega
    rw [bufferWord_render_eq_runWord h (lent_of_exec_render h hexec) hi,
      bufferWord_render_eq_runWord h' (lent_of_exec_render h' hexec') (hcfg ▸ hi), runWord_eol, hcfg, runWord_eol]
  case lastColumn =>
    exact bufferPixel_render_congr hcfg h hexec hexec' hp fun hlast => hcells _ (by omega)

/-! ### RENDER before and after a CSET -/

/-- A CSET leaves every cell but its own, and beyond the grid that one too (R91). -/
theorem cellAt_of_exec_cset {s t : State} {row col row' col' : Nat} {glyph attr : Byte}
    (h : exec (.cset row col glyph attr) s = .next t) (hne : ¬ (row' = row ∧ col' = col)) :
    t.cellAt row' col' = s.cellAt row' col' := by
  rcases execCset_cases h with ⟨_, rfl⟩ | ⟨_, rfl⟩
  · exact gridCell_writeCell.trans (if_neg hne)
  · rfl

/-- Settles O38: every word but the ones named shows a cell that the CSET leaves. -/
theorem csetChangesOnlyItsWords : Obligations.CsetChangesOnlyItsWords := by
  intro s t u u' row col glyph attr idx b b' h hcset hbefore hafter i hi hother
  have hwpl := s.cfg.wordsPerLine_eq
  obtain ⟨hcfg, _⟩ := exec_next hcset
  have hne : ¬ (idx / s.cfg.rowsPerGlyph = row ∧ (i - 1) / 4 = col) := by
    rintro ⟨rfl, rfl⟩
    omega
  have hword := bufferWord_render_congr (s := { s with buf := b }) (s' := { t with buf := b' }) hcfg.symm h hbefore
    hafter (show i < s.cfg.wordsPerLine by omega) (cellAt_of_exec_cset hcset hne).symm
  exact hword.symm

/-! ### The same RENDER twice -/

/-- A request to render a valid scanline into the buffer lent with it (R135). -/
theorem step_render {s : State} {idx : Nat} {buf : List Word} {rest : List Input}
    (hin : s.inputs = .request ⟨.call (.render idx), buf⟩ :: rest) (h : idx < s.cfg.scanlines)
    (hb : s.cfg.wordsPerLine ≤ buf.length) :
    step s = .next { s with
      inputs := rest
      buf := []
      outputs := .response (okRender s.cfg s.grid buf idx h) :: s.outputs } :=
  (step_of_request hin rfl).trans
    (exec_render_of_le (s := s.accept ⟨.call (.render idx), buf⟩ rest) h hb)

/-- Settles O36: run and count are functions of what the two machines share, and a RENDER leaves all that the next one
depends on. -/
theorem renderIsAFunctionOfTheGrid : Obligations.RenderIsAFunctionOfTheGrid := by
  constructor
  · intro s s' idx h hfont hpal hmarker heol hcolumns hheight hcells hb hb'
    have hc : SameRenderParameters s.cfg s'.cfg := ⟨hfont, hpal, hmarker, heol, hcolumns, hheight⟩
    have h' : idx < s'.cfg.scanlines := by
      rw [lt_scanlines_iff _ s.grid, ← cellAt_eq, hcells, hheight] at h
      exact (lt_scanlines_iff _ _ _).mpr h
    have hwpl : s.cfg.wordsPerLine = s.cfg.columns * 4 + 2 := s.cfg.wordsPerLine_eq
    have hwpl' : s'.cfg.wordsPerLine = s.cfg.columns * 4 + 2 := by rw [s'.cfg.wordsPerLine_eq, hcolumns]
    have hlent : s.cfg.wordsPerLine ≤ s.buf.length := hwpl ▸ hb
    have hlent' : s'.cfg.wordsPerLine ≤ s'.buf.length := hwpl' ▸ hb'
    have hused : usedWords s.cfg = usedWords s'.cfg := by rw [usedWords, usedWords, hwpl, hwpl']
    refine ⟨(.ok, usedWords s.cfg), ?_, ?_, fun i hi => ⟨_, bufferWord_render_eq_runWord h hlent (hwpl ▸ hi), ?_⟩⟩
    · rw [reply, lastResponse_render h hlent]
      rfl
    · rw [reply, lastResponse_render h' hlent', hused]
      rfl
    · rw [bufferWord_render_eq_runWord h' hlent' (hwpl' ▸ hi), runWord_linePixel_congr hc (hcells _ _)]
  · intro s idx buf rest h hb hin
    have hlent : s.cfg.wordsPerLine ≤ buf.length := s.cfg.wordsPerLine_eq ▸ hb
    have hfirst := step_render hin h hlent
    have hsecond := step_render (idx := idx) (buf := buf) (rest := rest)
      (s := { s with
        inputs := .request ⟨.call (.render idx), buf⟩ :: rest
        buf := []
        outputs := .response (okRender s.cfg s.grid buf idx h) :: s.outputs }) rfl h hlent
    exact ⟨_, _, (run_succ_of_next hfirst 1).trans (run_succ_of_next hsecond 0), rfl, rfl, rfl, rfl⟩

end Sys2Proof.Machine
end

section
/-! Runs in which every RENDER comes with its buffer (45_dispatch_boundary.md R157): each step answers, and delivers one
output unless it took a reset between operations. -/

namespace Sys2Proof.Machine

variable {s t : State} {r : Request} {x : Input} {xs rest : List Input}

/-! ### The buffer duty -/

theorem Request.lent_of_buffered {c : Config} {idx : Nat} (h : r.buffered c = true)
    (hop : r.operation = .ok (.render idx)) (hidx : idx < c.scanlines) : c.wordsPerLine ≤ r.buf.length := by
  simpa [Request.buffered, hop, hidx] using h

/-- An instruction answers unless it is a RENDER of a valid scanline lent too little (R57). -/
theorem exec_answers {i : Instr}
    (hlent : ∀ idx, i = .render idx → idx < s.cfg.scanlines → s.cfg.wordsPerLine ≤ s.buf.length) :
    ∃ t, exec i s = .next t := by
  rcases h : exec i s with t | f | r
  · exact ⟨t, rfl⟩
  · exact nomatch f
  · obtain ⟨_, idx, hi, hidx, hsmall⟩ := (refusedExactlyForSmallBuffers i s r).mp h
    have hb := hlent idx hi hidx
    rw [s.cfg.wordsPerLine_eq] at hb
    omega

/-- So does the reset that abandons an operation (R191). -/
theorem abandon_answers {op : Except DecodeError Instr}
    (hlent : ∀ idx, op = .ok (.render idx) → idx < s.cfg.scanlines → s.cfg.wordsPerLine ≤ s.buf.length) :
    ∃ t, s.abandon op = .next t := by
  match op, hlent with
  | .ok (.cget _ _), _ => exact ⟨_, rfl⟩
  | .ok (.cset _ _ _ _), _ => exact ⟨_, rfl⟩
  | .error _, _ => exact ⟨_, rfl⟩
  | .ok (.render idx), hlent =>
    rw [State.abandon]
    split
    · exact ⟨_, withBuffer_of_le (hlent idx rfl ‹_›) _⟩
    · exact ⟨_, rfl⟩

theorem step_of_reset (hin : s.inputs = .reset :: rest) : step s = .next (s.resetBetween rest) := by
  simp only [step, hin]

theorem step_of_resetDuring (hin : s.inputs = .resetDuring r :: rest) :
    step s = (s.accept r rest).abandon r.operation := by
  simp only [step, hin]

/-- A step whose input meets the buffer duty answers (R141, R157). -/
theorem step_answers (hin : s.inputs = x :: xs) (hx : x.buffered s.cfg = true) : ∃ t, step s = .next t := by
  cases x with
  | request r =>
    rcases hop : r.operation with e | i
    · exact ⟨_, step_of_illegal hin hop⟩
    · rw [step_of_request hin hop]
      refine exec_answers fun idx hi hidx => Request.lent_of_buffered hx ?_ hidx
      rw [hop, hi]
  | reset => exact ⟨_, step_of_reset hin⟩
  | resetDuring r =>
    rw [step_of_resetDuring hin]
    exact abandon_answers fun idx hop hidx => Request.lent_of_buffered hx hop hidx

/-! ### One output for each input -/

/-- What a step takes and delivers: one input, and one output unless that was a reset between operations (R77, R191). -/
theorem step_takes_input (h : step s = .next t) (hin : s.inputs = x :: xs) :
    t.inputs = xs ∧ t.outputs.length = s.outputs.length + [x].countP (· != .reset) := by
  rcases step_cases h with ⟨hnil, _⟩ | ⟨r, rest, i, hreq, _, hexec⟩ | ⟨r, rest, e, hreq, _, rfl⟩ | ⟨rest, hreq, rfl⟩ |
    ⟨r, rest, hreq, habandon⟩
  case inl => simp [hnil] at hin
  case inr.inl =>
    obtain ⟨rfl, rfl⟩ := List.cons.inj (hreq.symm.trans hin)
    obtain ⟨_, hinputs, _, _, a, hout, _⟩ := exec_next hexec
    exact ⟨hinputs, congrArg List.length hout⟩
  case inr.inr.inl =>
    obtain ⟨rfl, rfl⟩ := List.cons.inj (hreq.symm.trans hin)
    exact ⟨rfl, rfl⟩
  case inr.inr.inr.inl =>
    obtain ⟨rfl, rfl⟩ := List.cons.inj (hreq.symm.trans hin)
    exact ⟨rfl, rfl⟩
  case inr.inr.inr.inr =>
    obtain ⟨rfl, rfl⟩ := List.cons.inj (hreq.symm.trans hin)
    obtain ⟨_, hinputs, _, _, b, hout⟩ := abandon_next habandon
    exact ⟨hinputs, congrArg List.length hout⟩

/-- A run under way whose inputs meet the buffer duty, with `n` outputs when it ends. -/
structure BufferedProgress (c : Config) (n : Nat) (s : State) : Prop where
  cfg : s.cfg = c
  buffered : s.Buffered
  total : s.outputs.length + s.inputs.countP (· != .reset) = n

theorem BufferedProgress.step {c : Config} {n : Nat} {s : State} {x : Input} {xs : List Input}
    (hin : s.inputs = x :: xs) (hs : BufferedProgress c n s) :
    ∃ t, Machine.step s = .next t ∧ t.inputs = xs ∧ BufferedProgress c n t := by
  obtain ⟨rfl, hbuffered, htotal⟩ := hs
  rw [State.Buffered, hin, List.forall_mem_cons] at hbuffered
  obtain ⟨hx, hxs⟩ := hbuffered
  obtain ⟨t, ht⟩ := step_answers hin hx
  obtain ⟨hinputs, hlength⟩ := step_takes_input ht hin
  have hcfg := step_cfg ht
  refine ⟨t, ht, hinputs, hcfg, ?buffered, ?total⟩
  case buffered =>
    rw [State.Buffered, hinputs, hcfg]
    exact hxs
  case total =>
    rw [hin, ← List.singleton_append, List.countP_append] at htotal
    rw [hinputs, hlength]
    omega

/-- Settles O47: the duty and the count of outputs to come are kept to the last input. -/
theorem bufferedRunsComplete : Obligations.BufferedRunsComplete := by
  intro s hs
  obtain ⟨t, hrun, hnil, hcfg, _, htotal⟩ := run_all_inputs (fun _ _ _ => BufferedProgress.step) ⟨rfl, hs, rfl⟩
  refine ⟨t, hrun, hnil, hcfg, ?_⟩
  rw [hnil] at htotal
  exact htotal

end Sys2Proof.Machine
end

section
/-! The inputs of the dispatch loop: within a frame already seen there is nothing but RENDERs (45_dispatch_boundary.md R152,
R155). -/

namespace Sys2Proof.Machine

/-- The RENDER of a request into the buffer acquired with it (R152). -/
def ScanlineRequest.renderInput (q : ScanlineRequest) : Input := .request ⟨.call (.render q.scanline), q.buf⟩

/-- An iteration whose frame is the one seen before leaves the hook alone. -/
theorem dispatchIteration_of_seen {prev : Option Nat} {q : ScanlineRequest} (h : prev = some q.frame) :
    dispatchIteration prev q = [q.renderInput] := by
  rw [dispatchIteration, if_pos h.symm, List.nil_append, ScanlineRequest.renderInput]

/-- An iteration whose frame differs from the one seen before invokes the hook ahead of its RENDER. -/
theorem dispatchIteration_of_new {prev : Option Nat} {q : ScanlineRequest} (h : prev ≠ some q.frame) :
    dispatchIteration prev q = q.hook.map (fun k => callInput k.instr) ++ [q.renderInput] := by
  rw [dispatchIteration, if_neg h.symm, ScanlineRequest.renderInput]

/-- As long as the requests stay in the frame seen, `prev_frame` stays the same and every iteration is one RENDER. -/
theorem dispatchLoop_of_seen {frame : Nat} {qs : List ScanlineRequest} (h : ∀ q ∈ qs, q.frame = frame) :
    dispatchLoop (some frame) qs = qs.map ScanlineRequest.renderInput := by
  induction qs with
  | nil => rfl
  | cons q qs ih =>
    obtain ⟨rfl, hqs⟩ := List.forall_mem_cons.mp h
    rw [dispatchLoop, dispatchIteration_of_seen rfl, ih hqs, List.singleton_append, List.map_cons]

/-- Settles O50: only the first iteration can find its frame new, and the others follow in a frame seen. -/
theorem hookOnceForEachFrame : Obligations.HookOnceForEachFrame := by
  intro prev q qs hframe
  rw [dispatchLoop, dispatchLoop_of_seen hframe]
  split
  case isTrue hseen =>
    rw [dispatchIteration_of_seen hseen]
    rfl
  case isFalse hnew =>
    rw [dispatchIteration_of_new hnew, List.append_assoc]
    rfl

end Sys2Proof.Machine
end

section
/-! What a failure is (60_exceptions.md): every command that answers either finds its operands in range and is OK, or does
not and is answered by OutOfRange with nothing else changed (R165, R167, R172). -/

namespace Sys2Proof.Machine

variable {s t : State} {r : Request} {rest : List Input}

/-! ### The two outcomes of a command that answers -/

/-- The bounds check decides between the two: an OK response, or a failure that leaves the state alone (R165, R172). -/
theorem exec_outcome {i : Instr} (h : exec i s = .next t) :
    (inRange s.cfg i = true ∧ ∃ a : Response, t.outputs = .response a :: s.outputs ∧ a.status = .ok) ∨
    (inRange s.cfg i = false ∧ ∃ info, t = s.respond (.outOfRange info) 0) := by
  cases i with
  | cget row col =>
    rcases execCget_cases h with ⟨hin, rfl⟩ | ⟨hout, rfl⟩
    · exact .inl ⟨decide_eq_true hin, _, rfl, rfl⟩
    · exact .inr ⟨decide_eq_false hout, _, rfl⟩
  | cset row col glyph attr =>
    rcases execCset_cases h with ⟨hin, rfl⟩ | ⟨hout, rfl⟩
    · exact .inl ⟨decide_eq_true hin, _, rfl, rfl⟩
    · exact .inr ⟨decide_eq_false hout, _, rfl⟩
  | render idx =>
    rcases execRender_cases h with ⟨hin, _, rfl⟩ | ⟨hout, rfl⟩
    · exact .inl ⟨decide_eq_true hin, _, rfl, rfl⟩
    · exact .inr ⟨decide_eq_false hout, _, rfl⟩

/-! ### Precision -/

/-- A step delivers its response in front of the older outputs, so the response is determined by the outputs. -/
theorem response_eq_of_outputs {a b : Response} {os : List Output} (ha : t.outputs = .response a :: os)
    (hb : t.outputs = .response b :: os) : a = b :=
  Output.response.inj (List.cons.inj (ha.symm.trans hb)).1

/-- All that a request not answered OK can have done: deliver that status with payload 0 (R172). -/
theorem step_of_failure {a : Response} (hin : s.inputs = .request r :: rest) (h : step s = .next t)
    (hout : t.outputs = .response a :: s.outputs) (hfail : a.status ≠ .ok) :
    ∃ status, t = (s.accept r rest).respond status 0 := by
  rcases hop : r.operation with e | i
  · rw [step_of_illegal hin hop] at h
    cases h
    exact ⟨_, rfl⟩
  · rw [step_of_request hin hop] at h
    rcases exec_outcome h with ⟨_, b, hb, hok⟩ | ⟨_, info, ht⟩
    · rw [response_eq_of_outputs hout hb] at hfail
      exact absurd hok hfail
    · exact ⟨_, ht⟩

/-- Settles O45: a failing step is one `respond`, whose status the outputs determine. -/
theorem failuresArePrecise : Obligations.FailuresArePrecise := by
  intro s t r rest a hin h hout hfail
  obtain ⟨status, rfl⟩ := step_of_failure hin h hout hfail
  obtain rfl := response_eq_of_outputs hout (respond_outputs _ status 0)
  rfl

/-! ### Completion and status -/

/-- Settles O46: with its buffer duty met the request answers, and each outcome has one side of the bounds check. -/
theorem okExactlyInRange : Obligations.OkExactlyInRange := by
  intro s r rest i hin hop hbuffered
  obtain ⟨t, hstep⟩ := step_answers hin hbuffered
  have hexec := (step_of_request hin hop).symm.trans hstep
  rcases exec_outcome hexec with ⟨hrange, a, hout, hok⟩ | ⟨hrange, info, rfl⟩
  all_goals rw [accept_cfg] at hrange
  · exact ⟨t, a, hstep, hout, by simp [hok, hrange], by simp [hrange]⟩
  · exact ⟨_, _, hstep, respond_outputs _ _ _, by simp [hrange], fun _ => ⟨info, rfl⟩⟩

end Sys2Proof.Machine
end

section
/-! The two resets (70_reset_and_hazards.md R191): both leave the grid at GRID_INIT, and the one that abandons an operation
hands its buffer back besides. -/

namespace Sys2Proof.Machine

variable {s t : State}

/-! ### The grid after a reset -/

/-- A step that empties the grid memory leaves GRID_INIT at every position, for the parameters stay (R29, R31). -/
theorem cellAt_of_grid_nil {row col : Nat} (hcfg : t.cfg = s.cfg) (hgrid : t.grid = []) (hrow : row < s.cfg.rows)
    (hcol : col < s.cfg.columns) : t.cellAt row col = s.cfg.gridInit[row * s.cfg.columns + col]? := by
  rw [cellAt_eq, hcfg, hgrid, gridCell_nil hrow hcol]

/-- Settles O2: `resetBetween` touches the grid and the inputs alone. -/
theorem resetBetweenOperations : Obligations.ResetBetweenOperations := by
  intro s rest hin
  exact ⟨s.resetBetween rest, step_of_reset hin, rfl, fun _ _ => cellAt_of_grid_nil rfl rfl⟩

/-! ### The buffer of an abandoned operation -/

/-- Only a RENDER of a valid scanline was writing its buffer; any other operation is abandoned with it as lent. -/
theorem abandon_of_not_writing {op : Except DecodeError Instr}
    (hop : ∀ idx, op = .ok (.render idx) → s.cfg.scanlines ≤ idx) : s.abandon op = .next s.abandonUnwritten := by
  match op, hop with
  | .ok (.cget _ _), _ => rfl
  | .ok (.cset _ _ _ _), _ => rfl
  | .error _, _ => rfl
  | .ok (.render idx), hop => exact if_neg (Nat.not_lt.mpr (hop idx rfl))

/-- The buffer handed back has the length lent, and its words too unless the operation was writing it (R191, 93 U5). -/
theorem abandon_buffer {op : Except DecodeError Instr} (h : s.abandon op = .next t) :
    ∃ b, t.outputs = .abandoned b :: s.outputs ∧ b.length = s.buf.length ∧
      ((∀ idx, op = .ok (.render idx) → s.cfg.scanlines ≤ idx) → b = s.buf) := by
  rcases abandon_cases h with rfl | ⟨_, rfl⟩
  · exact ⟨s.buf, abandonUnwritten_outputs s, rfl, fun _ => rfl⟩
  · refine ⟨_, abandonWriting_outputs s, freeWords_length _ _, fun hop => ?_⟩
    have hsame := Host.Outcome.next.inj (h.symm.trans (abandon_of_not_writing hop))
    exact Output.abandoned.inj (List.cons.inj (congrArg State.outputs hsame)).1

/-- Settles O3: with its buffer duty met the abandoned operation answers, with the grid emptied and the buffer given
back. -/
theorem resetDuringOperation : Obligations.ResetDuringOperation := by
  intro s r rest hin hbuffered
  obtain ⟨t, hstep⟩ := step_answers hin hbuffered
  have habandon := (step_of_resetDuring hin).symm.trans hstep
  obtain ⟨hcfg, hinputs, hgrid, hbuf, _⟩ := abandon_next habandon
  obtain ⟨b, hout, hlength, hlent⟩ := abandon_buffer habandon
  exact ⟨t, b, hstep, hout, hlength, hinputs, hcfg, hbuf, hlent, fun _ _ => cellAt_of_grid_nil hcfg hgrid⟩

end Sys2Proof.Machine
end
